-- ==== Sys2Proof/Word.lean ====
section
/-! DEFINITION. The widths of the block's values (`00_scope.md` R8, R9): every value is unsigned and
bit 0 is the least significant bit. -/

namespace Sys2Proof

/-- A `u8`: one pushed byte, one buffer slot, one opcode. -/
abbrev Byte := BitVec 8

/-- A `u32`: the seed, the accumulator `h1`, the byte count, an operand, a probe, a response value. -/
abbrev Word := BitVec 32

/-- A `u40`: the one command word (R60, R72). A parallel word with no byte order (R45). -/
abbrev CommandWord := BitVec 40

end Sys2Proof
end

