-- ==== Sys2Proof/Config.lean ====
section
/-! DEFINITION. The parameters of the block (`00_scope.md` R8) that are not widths. The hardwired
literals of the algorithm stand in `Sys2Proof/Machine/Literals.lean`. -/

namespace Sys2Proof

/-- The two readings of the document's open question about the rotate (R102). -/
inductive RotMode where
  /-- The true 32-bit rotation; the one admitted value. -/
  | canonical
  /-- The prototype's masked arithmetic, of which no source gives the expression or the place. -/
  | prototype
  deriving DecidableEq, Repr

/-- `ROT_MODE`: the value this hardware takes (R8, R102). -/
def Config.rotMode : RotMode := .canonical

/-- `TRACE_EN` (R8, R131): OPEN. It decides whether the trace ports exist and has no effect on the
state or on the responses. -/
opaque Config.traceEn : Bool

/-- One less than `LATENCY`; a free natural number. -/
opaque Config.latencyPred : Nat

/-- `LATENCY` (R8, R148): OPEN, a number of cycles, at least 1, the same for every command. The model
counts no time, so no definition reads it. -/
def Config.latency : Nat := Config.latencyPred + 1

end Sys2Proof
end

