-- ==== Sys2Proof/Syntax.lean ====
section
/-! DEFINITION. The command set: one constructor per row of `spec/opcode_table.json` (R3, R62). -/

namespace Sys2Proof

/-- A decoded command. RESET and LENGTH keep their reserved operand (R65), so that a command stands for
exactly one command word. -/
inductive Instr where
  /-- CONSTRUCT: load a seed and reset (R80); the operand is used whole. -/
  | construct (seedIn : Word)
  /-- RESET: return to the initial state of the current seed (R81); the operand is reserved. -/
  | reset (reserved : Word)
  /-- LENGTH: read the byte count (R82); the operand is reserved. -/
  | length (reserved : Word)
  /-- PUSH: add one byte and return a probe (R96); the operand is the byte's value. -/
  | push (value : Word)
  deriving DecidableEq, Repr

/-- The mnemonic of `spec/opcode_table.json`. -/
def Instr.mnemonic : Instr → String
  | .construct _ => "CONSTRUCT"
  | .reset _ => "RESET"
  | .length _ => "LENGTH"
  | .push _ => "PUSH"

end Sys2Proof
end

