-- ==== Sys2Proof/Decode.lean ====
section
/-! DEFINITION. The command encoding (`30_encoding.md` R60 to R65, R72; `spec/opcode_table.json`): the
decoder, the encoder and the opcode table. -/

namespace Sys2Proof

/-- `opcode = w[39:32]` (R60). -/
def opcodeField (w : CommandWord) : Byte := w.extractLsb' 32 8

/-- `operand = w[31:0]` (R60, R61): no sign extension, scaling or shifting. -/
def operandField (w : CommandWord) : Word := w.extractLsb' 0 32

/-- What a command word decodes to (R63): exactly one of the four commands, or the illegal verdict. -/
inductive Decoded where
  | legal (i : Instr)
  | illegal (opcode : Byte)
  deriving DecidableEq, Repr

/-- R62, R63: selection by exact match of all eight opcode bits; total on command words. -/
def decode (w : CommandWord) : Decoded :=
  if opcodeField w = 0x01#8 then .legal (.construct (operandField w))
  else if opcodeField w = 0x02#8 then .legal (.reset (operandField w))
  else if opcodeField w = 0x03#8 then .legal (.length (operandField w))
  else if opcodeField w = 0x04#8 then .legal (.push (operandField w))
  else .illegal (opcodeField w)

/-- One command word from its two fields (R60). -/
def commandWord (opcode : Byte) (operand : Word) : CommandWord := opcode ++ operand

/-- The command word of a command (R62, R73). -/
def encode : Instr → CommandWord
  | .construct seedIn => commandWord 0x01#8 seedIn
  | .reset reserved => commandWord 0x02#8 reserved
  | .length reserved => commandWord 0x03#8 reserved
  | .push value => commandWord 0x04#8 value

/-- One row of `spec/opcode_table.json`; it selects the words `w` with `(w & mask) == pattern`. -/
structure OpcodeRow where
  mnemonic : String
  pattern : CommandWord
  mask : CommandWord
  deriving DecidableEq, Repr

/-- `spec/opcode_table.json`, row by row. -/
def opcodeTable : List OpcodeRow :=
  [ ⟨"CONSTRUCT", 0x0100000000#40, 0xFF00000000#40⟩,
    ⟨"RESET", 0x0200000000#40, 0xFF00000000#40⟩,
    ⟨"LENGTH", 0x0300000000#40, 0xFF00000000#40⟩,
    ⟨"PUSH", 0x0400000000#40, 0xFF00000000#40⟩ ]

/-- Whether a row selects a word. -/
def OpcodeRow.selects (r : OpcodeRow) (w : CommandWord) : Bool := (w &&& r.mask) == r.pattern

/-- The command word that holds the low `nbits` bits of `w`, every bit above them zero. -/
def tableWord (nbits w : Nat) : CommandWord := BitVec.ofNat 40 (w % 2 ^ nbits)

/-- The command the decoder reads from a word numbered as `spec/opcode_table.json` numbers it; a command
word is one parallel word (R45), so no byte order enters. -/
def decodeTableWord (nbits w : Nat) : Option Instr :=
  match decode (tableWord nbits w) with
  | .legal i => some i
  | .illegal _ => none

end Sys2Proof
end

