-- ==== Sys2Proof/Machine/State.lean ====
section
/-! DEFINITION. The state of the block and of its command port, as plain data, and the reasons for which the
model stops. -/

namespace Sys2Proof.Machine

/-- R23 to R33: the block's whole architectural state, the document's IncrementalHasher. The multiplier
constants and the other literals are hardwired, not state (R24, R25); the phase is derived (R29). -/
structure Hasher where
  /-- R23: fixed by CONSTRUCT; RESET loads `h1` from it. -/
  seed : Word
  /-- R28: the committed accumulator. -/
  h1 : Word
  /-- R27: bytes pushed since the last RESET or CONSTRUCT, modulo 2^32. -/
  totalLen : Word
  /-- R26: the staging buffer, four slots of eight bits. -/
  buf : Vector Byte 4
  deriving DecidableEq, Repr

/-- R67: the status of a response. Code 3 is reserved and never produced, so it has no constructor. -/
inductive Status where
  | ok
  | invalidInput
  | illegalCommand
  deriving DecidableEq, Repr

/-- R66: the one response of an accepted command. -/
structure Response where
  status : Status
  value : Word
  deriving DecidableEq, Repr

/-- What the output ports show when a command completes (R66, R68, R131): the response and, for a successful
PUSH, the probe offered to the trace port in the same cycle. Whether that port exists is `Config.traceEn`, which
is applied where the port is read (`Output.tracePort`), because it has no effect on state (R8). -/
structure Output where
  response : Response
  trace : Option Word
  deriving DecidableEq, Repr

/-- R120: the two errors, each with the value `raise` names (R11); nothing of that value is recorded. -/
inductive CommandError where
  | invalidInput (value : Word)
  | illegalCommand (opcode : Byte)
  deriving DecidableEq, Repr

/-- R70: what the caller can do to the block; each is one step of the model (R149). -/
inductive Input where
  /-- One command word that the port accepts (R69) and that completes. -/
  | command (w : CommandWord)
  /-- One assertion of `rst`, with the command it interrupts, if one had been accepted and was in progress
  (R142): that command is abandoned. -/
  | rst (interrupted : Option CommandWord)
  deriving DecidableEq, Repr

/-- The state of the model. `hasher` is the spec's state of the block (R33); the other three fields are the
model's own, for the port. -/
structure State where
  /-- The block's architectural state. -/
  hasher : Hasher
  /-- Whether the block has had a power-on reset (R143). -/
  hasReset : Bool
  /-- The caller's coming actions at the port, the next one first. -/
  inputs : List Input
  /-- What the output ports have shown, one entry per completed command, oldest first (R49, R66). -/
  outputs : List Output
  deriving DecidableEq, Repr

/-- R140: the power-on values of the block's state, those of `CONSTRUCT 0`. -/
def Hasher.powerOn : Hasher where
  seed := 0x00000000#32
  h1 := 0x00000000#32
  totalLen := 0x00000000#32
  buf := #v[0x00#8, 0x00#8, 0x00#8, 0x00#8]

/-- R140, R141, R149: the machine right after power-on reset; nothing has been sent and nothing answered. -/
def State.reset : State where
  hasher := Hasher.powerOn
  hasReset := true
  inputs := []
  outputs := []

/-- The block never stops with a fault: an error takes no trap and ends only its command (R125), no arithmetic
result faults (R123) and no command stops the block (R149). So there is no constructor. -/
inductive Fault where
  deriving DecidableEq, Repr

/-- The reasons for which the model gives no meaning. -/
inductive Refusal where
  /-- Raised by an arm of `exec` for an instruction that has no meaning yet; no arm does. Safe. -/
  | notModelled (mnemonic : String)
  /-- Raised by `serve` for a command presented before the first power-on reset, as R143 asks. Safe. -/
  | beforeFirstReset
  /-- Raised by `stepUnder` for `ROT_MODE = PROTOTYPE`, as R102 asks. Safe. -/
  | prototypeRotate
  deriving DecidableEq, Repr

end Sys2Proof.Machine
end

