-- ==== Sys2Proof/Machine/Flags.lean ====
section
/-! DEFINITION. The block has no flags and no condition codes (`10_state.md` R22); what a command reports instead
is the status of its response (`30_encoding.md` R67, `60_exceptions.md` R120). -/

namespace Sys2Proof.Machine

/-- R67: the 2-bit code on `rsp_status`. -/
def Status.code : Status → BitVec 2
  | .ok => 0#2
  | .invalidInput => 1#2
  | .illegalCommand => 2#2

/-- R67: the status a code names; code 3 is reserved, and a response that carries it is ill-formed. -/
def Status.ofCode (c : BitVec 2) : Option Status :=
  if c = 0#2 then some .ok
  else if c = 1#2 then some .invalidInput
  else if c = 2#2 then some .illegalCommand
  else none

/-- R120: the status of an error. -/
def CommandError.status : CommandError → Status
  | .invalidInput _ => .invalidInput
  | .illegalCommand _ => .illegalCommand

end Sys2Proof.Machine
end

