-- ==== Sys2Proof/Machine/Arith.lean ====
section
/-! DEFINITION. The 32-bit primitives (`00_scope.md` R10, `41_push.md` R99). Each reduces modulo 2^32 as it
happens; nothing is signed and no overflow is detected. -/

namespace Sys2Proof.Machine

/-- `(a + b) mod 2^32`. -/
def add32 (a b : Word) : Word := a + b

/-- `(a * b) mod 2^32`: the low 32 bits of the full product. -/
def mul32 (a b : Word) : Word := a * b

/-- `(x * 2^n) mod 2^32`: bits shifted out are discarded. -/
def shl32 (x : Word) (n : Nat) : Word := x <<< n

/-- `floor(x / 2^n)`: logical, zero fill. -/
def shr32 (x : Word) (n : Nat) : Word := x >>> n

/-- `shl32(x, n) | shr32(x, 32 - n)`, for `1 <= n <= 31`: a true 32-bit rotation. -/
def rotl32 (x : Word) (n : Nat) : Word := shl32 x n ||| shr32 x (32 - n)

/-- `zext_32` of a byte (R9). -/
def zext32 (b : Byte) : Word := b.setWidth 32

end Sys2Proof.Machine
end

