-- ==== Sys2Proof/Machine/Literals.lean ====
section
/-! DEFINITION. The hardwired literals of the algorithm (`10_state.md` R24, R25). No command writes or reads
them and reset does not change them, so they are constants and not state. -/

namespace Sys2Proof.Machine

/-- R24: the first multiplier of the key mix. -/
def c1 : Word := 0xcc9e2d51#32

/-- R24: the second multiplier of the key mix. -/
def c2 : Word := 0x1b873593#32

/-- R25: the block-mix multiplier (step 3g). -/
def mixMul : Word := 5#32

/-- R25: the block-mix addend (step 3g). -/
def mixAdd : Word := 0xe6546b64#32

/-- R25: the first finalization multiplier (step 4d). -/
def finalMul1 : Word := 0x85ebca6b#32

/-- R25: the second finalization multiplier (step 4d). -/
def finalMul2 : Word := 0xc2b2ae35#32

/-- R25: the rotate amount of the key mix (steps 3c and 4a). -/
def keyRot : Nat := 15

/-- R25: the rotate amount of the block mix (step 3f). -/
def mixRot : Nat := 13

/-- R25: the first finalization shift (step 4d). -/
def finalShift1 : Nat := 16

/-- R25: the second finalization shift (step 4d). -/
def finalShift2 : Nat := 13

/-- R25: the third finalization shift (step 4d). -/
def finalShift3 : Nat := 16

end Sys2Proof.Machine
end

