-- ==== Sys2Proof/Machine/Mix.lean ====
section
/-! DEFINITION. The pure functions of PUSH (`41_push.md` R90 to R95), in the order the algorithm uses them. -/

namespace Sys2Proof.Machine

/-- R90: the key mix, of the block word and of the tail word. -/
def kmix (k : Word) : Word := mul32 (rotl32 (mul32 k c1) keyRot) c2

/-- R91, R44: the little-endian word of all four slots. -/
def blockWord (buf : Vector Byte 4) : Word :=
  zext32 buf[0] ||| shl32 (zext32 buf[1]) 8 ||| shl32 (zext32 buf[2]) 16 ||| shl32 (zext32 buf[3]) 24

/-- R92: the committed block step (steps 3a to 3g). -/
def blockMix (h : Word) (buf : Vector Byte 4) : Word :=
  add32 (mul32 (rotl32 (h ^^^ kmix (blockWord buf)) mixRot) mixMul) mixAdd

/-- R93: the tail word of the `n` bytes present, `1 <= n <= 3`; the cumulative reading (`90_conflicts.md` C3). -/
def tailWord (buf : Vector Byte 4) (n : Nat) : Word :=
  (if 3 ≤ n then shl32 (zext32 buf[2]) 16 else 0#32) |||
  (if 2 ≤ n then shl32 (zext32 buf[1]) 8 else 0#32) |||
  zext32 buf[0]

/-- R94: `p ^ shr32(p, n)`, the finalization's xor-shift; the shift is logical. -/
def xorShift (p : Word) (n : Nat) : Word := p ^^^ shr32 p n

/-- R94: the avalanche finalization mix (step 4d). -/
def fmix32 (p : Word) : Word :=
  xorShift (mul32 (xorShift (mul32 (xorShift p finalShift1) finalMul1) finalShift2) finalMul2) finalShift3

/-- R95: the speculative probe of a push that leaves `n` bytes, `1 <= n <= 3`, and the count `len` (steps 4a to
4d). `h` is a copy of the committed `h1`; nothing is written. -/
def tailProbe (h : Word) (buf : Vector Byte 4) (n : Nat) (len : Word) : Word :=
  fmix32 (h ^^^ kmix (tailWord buf n) ^^^ len)

end Sys2Proof.Machine
end

