-- ==== Sys2Proof/Machine/Ops.lean ====
section
/-! DEFINITION. The operations the commands share: the phase, the state of a fresh hasher, adding a byte, answering a
command, raising an error, and the `rst` input. The block has no memory (`20_memory.md` R40); the buffer is its
only indexed storage. -/

namespace Sys2Proof.Machine

/-- R29: `total_len mod 4`. -/
def phase (totalLen : Word) : Fin 4 := ⟨totalLen.toNat % 4, Nat.mod_lt _ (by decide)⟩

/-- R80, R81: the state of a freshly constructed hasher. -/
def Hasher.fresh (seed : Word) : Hasher where
  seed := seed
  h1 := seed
  totalLen := 0x00000000#32
  buf := #v[0x00#8, 0x00#8, 0x00#8, 0x00#8]

/-- R42: write one byte to `buf[total_len mod 4]`, the count taken before it is incremented. -/
def Hasher.stage (b : Byte) (k : Hasher) : Vector Byte 4 := k.buf.set (phase k.totalLen) b

/-- R96 steps 1 to 4: the state after a successful PUSH of `b`. The accumulator is written only when the push leaves
phase 0 (R97). -/
def Hasher.pushed (b : Byte) (k : Hasher) : Hasher :=
  let buf' := k.stage b
  let totalLen' := add32 k.totalLen 1#32
  { seed := k.seed
    h1 := if phase totalLen' = 0 then blockMix k.h1 buf' else k.h1
    totalLen := totalLen'
    buf := buf' }

/-- R96 steps 3h and 4: the probe of a successful PUSH of `b`: the raw committed `h1` at a block boundary (R98), a
tail probe otherwise (R95). -/
def Hasher.probe (b : Byte) (k : Hasher) : Word :=
  let buf' := k.stage b
  let totalLen' := add32 k.totalLen 1#32
  if phase totalLen' = 0 then blockMix k.h1 buf' else tailProbe k.h1 buf' (phase totalLen').val totalLen'

/-- The end of a command (R11, R48): its writes take effect together and its one response is presented. -/
def State.complete (s : State) (k : Hasher) (r : Response) (trace : Option Word) : State :=
  { s with hasher := k, outputs := s.outputs ++ [⟨r, trace⟩] }

/-- `respond(OK, value)` of a command that presents no trace. -/
def State.respond (s : State) (k : Hasher) (value : Word) : State := s.complete k ⟨.ok, value⟩ none

/-- `respond(OK, probe)` and `trace(probe)` of a successful PUSH (R96, R131). -/
def State.respondProbe (s : State) (k : Hasher) (probe : Word) : State :=
  s.complete k ⟨.ok, probe⟩ (some probe)

/-- `raise E` (R11, R125): no trap, no state element written, no trace, and a response with the error's status and
the value 0. The next command proceeds normally (R126), so there is no return. -/
def State.raise (s : State) (e : CommandError) : State := s.complete s.hasher ⟨e.status, 0x00000000#32⟩ none

/-- One assertion of `rst` (R140, R142): the power-on state, with no response. -/
def State.assertRst (s : State) : State := { s with hasher := Hasher.powerOn, hasReset := true }

end Sys2Proof.Machine
end

