-- ==== Sys2Proof/Machine/Lifecycle.lean ====
section
/-! DEFINITION. The three commands that do not hash (`40_commands.md` R80 to R82). -/

namespace Sys2Proof.Machine

/-- CONSTRUCT (R80): every operand is a legal seed. -/
def execConstruct (seedIn : Word) (s : State) : Host.Outcome State Fault Refusal :=
  .next (s.respond (Hasher.fresh seedIn) 0x00000000#32)

/-- RESET (R81): the initial state of the current seed; the operand is ignored (R65). -/
def execReset (_reserved : Word) (s : State) : Host.Outcome State Fault Refusal :=
  .next (s.respond (Hasher.fresh s.hasher.seed) 0x00000000#32)

/-- LENGTH (R82): answers `total_len` and writes no state element; the operand is ignored (R65). -/
def execLength (_reserved : Word) (s : State) : Host.Outcome State Fault Refusal :=
  .next (s.respond s.hasher s.hasher.totalLen)

end Sys2Proof.Machine
end

