-- ==== Sys2Proof/Machine/Operands.lean ====
section
/-! DEFINITION. The operand forms (`30_encoding.md` R61, R65). CONSTRUCT uses its operand whole, RESET and LENGTH
ignore theirs, and PUSH takes a byte from a 32-bit operand. -/

namespace Sys2Proof.Machine

/-- R61, R96: `operand[7:0]` when `operand <= 0xFF`; otherwise the operand is not a byte. -/
def byteOperand (operand : Word) : Option Byte :=
  if operand ≤ 0x000000FF#32 then some (operand.extractLsb' 0 8) else none

end Sys2Proof.Machine
end

