-- ==== Sys2Proof/Machine/Push.lean ====
section
/-! DEFINITION. The one hashing command (`41_push.md` R96). -/

namespace Sys2Proof.Machine

/-- PUSH (R96): the operand is checked before any write (R121). -/
def execPush (value : Word) (s : State) : Host.Outcome State Fault Refusal :=
  match byteOperand value with
  | none => .next (s.raise (.invalidInput value))
  | some b => .next (s.respondProbe (s.hasher.pushed b) (s.hasher.probe b))

end Sys2Proof.Machine
end

