-- ==== Sys2Proof/Machine/Dispatch.lean ====
section
/-! DEFINITION. One arm per command. -/

namespace Sys2Proof.Machine

def exec (i : Instr) (s : State) : Host.Outcome State Fault Refusal :=
  match i with
  | .construct seedIn => Sys2Proof.Machine.execConstruct seedIn s
  | .reset reserved => Sys2Proof.Machine.execReset reserved s
  | .length reserved => Sys2Proof.Machine.execLength reserved s
  | .push value => Sys2Proof.Machine.execPush value s

end Sys2Proof.Machine
end

