-- ==== Sys2Proof/Machine/Port.lean ====
section
/-! DEFINITION. The command port (`30_encoding.md` R66 to R70): accepting a command word, the `rst` input, and what
the output ports show of a completed command. -/

namespace Sys2Proof.Machine

/-- R63, R122: an accepted word runs its command, or raises IllegalCommand. Accepting it and answering it are one
step (R48, R69). -/
def accept (w : CommandWord) (s : State) : Host.Outcome State Fault Refusal :=
  match decode w with
  | .legal i => exec i s
  | .illegal opcode => .next (s.raise (.illegalCommand opcode))

/-- R70: one action of the caller. A command before the first power-on reset is refused (R143); `rst` always takes
effect, and the command it interrupts has no effect and no response (R142). -/
def serve (x : Input) (s : State) : Host.Outcome State Fault Refusal :=
  match x with
  | .command w => if s.hasReset then accept w s else .refused .beforeFirstReset
  | .rst _ => .next s.assertRst

/-- One step for a given `ROT_MODE`. `PROTOTYPE` has no meaning (R102). With no action of the caller the block holds
its state (R35, R133). -/
def stepUnder (mode : RotMode) (s : State) : Host.Outcome State Fault Refusal :=
  match mode with
  | .prototype => .refused .prototypeRotate
  | .canonical =>
    match s.inputs with
    | [] => .next s
    | x :: rest => serve x { s with inputs := rest }

/-- R68: `rsp_status` and `rsp_value` in the cycle `rsp_valid` is high. -/
def Output.rspPort (o : Output) : BitVec 2 × Word := (o.response.status.code, o.response.value)

/-- R68, R131: `trace_value` where `trace_valid` is high in the cycle of the response; the ports are present only
when `TRACE_EN`. -/
def Output.tracePort (traceEn : Bool) (o : Output) : Option Word := if traceEn then o.trace else none

/-- The trace port of this hardware, whose `TRACE_EN` is open. -/
def Output.traceOut (o : Output) : Option Word := o.tracePort Config.traceEn

/-- R149: the observation of a run: the responses in command order and the final state of the block. -/
def State.observation (s : State) : List Response × Hasher := (s.outputs.map (·.response), s.hasher)

end Sys2Proof.Machine
end

