-- ==== Sys2Proof/Machine/Step.lean ====
section
/-! DEFINITION. The step of the machine (`70_reset_and_hazards.md` R149): one command, or one assertion of `rst`. -/

namespace Sys2Proof.Machine

/-- One step of this hardware, whose `ROT_MODE` is `CANONICAL` (R8). -/
def step (s : State) : Host.Outcome State Fault Refusal := stepUnder Config.rotMode s

/-- The state in which the caller presents the given word as its next action. A block that has had no power-on reset
still refuses it (R143). -/
def State.withFetchWord (s : State) (nbits w : Nat) : State :=
  { s with inputs := .command (tableWord nbits w) :: s.inputs }

end Sys2Proof.Machine
end

