-- ==== Sys2Proof/Machine/Assembler.lean ====
section
/-! DEFINITION. The assembly syntax and the pseudo-instructions (`30_encoding.md` R73, R74): an assembled line, its
command words, and the reader of a line's text. What R73 and R74 leave open of the text is the model's choice, each point listed
in log entry 17 (DESIGN CHOICE). The assembler is software: no step of the machine reads it. -/

namespace Sys2Proof.Machine

/-- One line of assembly (R73, R74); a line with no command assembles to nothing. Literals are unbounded. -/
inductive AsmLine where
  | blank
  /-- `CONSTRUCT <u32>`, or `CONSTRUCT` with no operand. -/
  | construct (seed : Option Nat)
  | reset
  | length
  /-- `PUSH <u32>`. -/
  | push (value : Nat)
  /-- `PUSHS "<text>"`: the codes of the text's characters, in text order. -/
  | pushs (text : List Nat)
  /-- `.word40 <u40>`. -/
  | word40 (word : Nat)
  deriving DecidableEq, Repr

/-- R73: a literal wider than its field is refused. -/
def literalField (width n : Nat) : Option (BitVec width) :=
  if n < 2 ^ width then some (BitVec.ofNat width n) else none

/-- R74: one PUSH per byte of an ASCII text; a code above 127 is no ASCII code. -/
def asmPushes : List Nat → Option (List CommandWord)
  | [] => some []
  | c :: rest =>
    if c < 128 then (asmPushes rest).map (encode (.push (BitVec.ofNat 32 c)) :: ·) else none

/-- R73, R74: the command words of a line, or `none` where the assembler refuses it. -/
def assemble : AsmLine → Option (List CommandWord)
  | .blank => some []
  | .construct none => some [encode (.construct 0#32)]
  | .construct (some n) => (literalField 32 n).map fun seed => [encode (.construct seed)]
  | .reset => some [encode (.reset 0#32)]
  | .length => some [encode (.length 0#32)]
  | .push n => (literalField 32 n).map fun value => [encode (.push value)]
  | .pushs text => asmPushes text
  | .word40 n => (literalField 40 n).map fun w => [w]

/-- The single quote of a character literal. -/
def asmQuote : Char := Char.ofNat 39

/-- The double quote of a text. -/
def asmDoubleQuote : Char := Char.ofNat 34

/-- Whether a character separates the parts of a line. -/
def asmSpace (c : Char) : Bool := c == ' ' || c == Char.ofNat 9 || c == Char.ofNat 13

/-- A line's text from its first character that is no space. -/
def asmTrim : List Char → List Char
  | [] => []
  | c :: rest => if asmSpace c then asmTrim rest else c :: rest

/-- Whether only spaces and a comment remain (R73). -/
def asmAtEnd (cs : List Char) : Bool :=
  match asmTrim cs with
  | [] => true
  | c :: _ => c == ';'

/-- The word a text begins with, and what follows it. A `;` ends the word without a space before it (log entry 17, DESIGN CHOICE). -/
def asmWord : List Char → List Char × List Char
  | [] => ([], [])
  | c :: rest =>
    if asmSpace c || c == ';' then ([], c :: rest)
    else (c :: (asmWord rest).1, (asmWord rest).2)

/-- The value of one digit of the given base. -/
def asmDigit (base : Nat) (c : Char) : Option Nat :=
  let n := c.toNat
  let v :=
    if 48 ≤ n ∧ n ≤ 57 then n - 48
    else if 97 ≤ n ∧ n ≤ 102 then n - 87
    else if 65 ≤ n ∧ n ≤ 70 then n - 55
    else base
  if v < base then some v else none

/-- The number that a sequence of digits continues. -/
def asmDigits (base acc : Nat) : List Char → Option Nat
  | [] => some acc
  | c :: rest => (asmDigit base c).bind fun v => asmDigits base (acc * base + v) rest

/-- R73: a decimal or `0x` hexadecimal literal. -/
def asmNumber : List Char → Option Nat
  | '0' :: 'x' :: c :: rest => asmDigits 16 0 (c :: rest)
  | c :: rest => asmDigits 10 0 (c :: rest)
  | [] => none

/-- R73: one literal, the last thing on its line: decimal, `0x` hexadecimal, or a single-quoted character. R73 says that `;` starts a
comment and does not say whether it does inside quotes. Here a quoted `;` is the character itself and starts no comment (log entry
17, DESIGN CHOICE). -/
def asmLiteral (cs : List Char) : Option Nat :=
  match asmTrim cs with
  | [] => none
  | c :: rest =>
    if c == asmQuote then
      match rest with
      | x :: q :: after => if q == asmQuote && x.toNat < 128 && asmAtEnd after then some x.toNat else none
      | _ => none
    else if asmAtEnd (asmWord (c :: rest)).2 then asmNumber (asmWord (c :: rest)).1
    else none

/-- The characters up to the closing double quote, which must be the last thing on its line. A `;` among them is a character of the
text and starts no comment (log entry 17, DESIGN CHOICE). -/
def asmTextBody : List Char → Option (List Nat)
  | [] => none
  | c :: rest =>
    if c == asmDoubleQuote then (if asmAtEnd rest then some [] else none)
    else (asmTextBody rest).map (c.toNat :: ·)

/-- R74: the double-quoted text of PUSHS. -/
def asmText (cs : List Char) : Option (List Nat) :=
  match asmTrim cs with
  | [] => none
  | c :: rest => if c == asmDoubleQuote then asmTextBody rest else none

/-- R73, R74: read one line; `none` where the text is no line of the syntax. -/
def readAsmLine (cs : List Char) : Option AsmLine :=
  if asmAtEnd cs then some .blank
  else
    let word := (asmWord (asmTrim cs)).1
    let rest := (asmWord (asmTrim cs)).2
    if word = ['C', 'O', 'N', 'S', 'T', 'R', 'U', 'C', 'T'] then
      if asmAtEnd rest then some (.construct none) else (asmLiteral rest).map fun n => .construct (some n)
    else if word = ['R', 'E', 'S', 'E', 'T'] then if asmAtEnd rest then some .reset else none
    else if word = ['L', 'E', 'N', 'G', 'T', 'H'] then if asmAtEnd rest then some .length else none
    else if word = ['P', 'U', 'S', 'H'] then (asmLiteral rest).map .push
    else if word = ['P', 'U', 'S', 'H', 'S'] then (asmText rest).map .pushs
    else if word = ['.', 'w', 'o', 'r', 'd', '4', '0'] then (asmLiteral rest).map .word40
    else none

/-- The lines of a text. -/
def asmLines : List Char → List (List Char)
  | [] => [[]]
  | c :: rest =>
    match asmLines rest with
    | [] => [[c]]
    | line :: more => if c == Char.ofNat 10 then [] :: line :: more else (c :: line) :: more

/-- The command words of a list of lines, in order; refused where any line is. -/
def assembleLines : List (List Char) → Option (List CommandWord)
  | [] => some []
  | line :: more =>
    match (readAsmLine line).bind assemble, assembleLines more with
    | some ws, some rest => some (ws ++ rest)
    | _, _ => none

/-- R73: one command a line; the command words of a whole text. -/
def assembleText (cs : List Char) : Option (List CommandWord) := assembleLines (asmLines cs)

end Sys2Proof.Machine
end

