-- ==== Sys2Proof/WellFormed.lean ====
section
/-! DEFINITION. What software is asked of a command (`30_encoding.md` R65). The block itself executes
every command, well-formed or not, so no statement about execution or decoding takes this as a premise. -/

namespace Sys2Proof

/-- R65: for RESET and LENGTH the operand is reserved and software should write it as zero. CONSTRUCT takes
every operand; a PUSH operand above 0xFF is a command of its own, which ends in InvalidInput (R61, R96). -/
def Instr.wellFormed : Instr → Bool
  | .construct _ => true
  | .reset reserved => reserved == 0
  | .length reserved => reserved == 0
  | .push _ => true

end Sys2Proof
end

