-- ==== Sys2Proof/Safety.lean ====
section
/-! DEFINITION. The terms in which claims about the machine are made: the invariant of the output log, the closed forms
of the hash over a byte sequence (`10_state.md` R34, `41_push.md` R100), kinds of input, interleavings of two callers
(`60_exceptions.md` R129), and states that differ only in stale buffer slots (`10_state.md` R30). -/

namespace Sys2Proof.Machine

/-- R149: a run of `n` steps, each one action of the caller; it stops at the first fault or refusal. -/
def run : Nat → State → Host.Outcome State Fault Refusal
  | 0, s => .next s
  | n + 1, s =>
    match step s with
    | .next t => run n t
    | .fault r => .fault r
    | .refused r => .refused r

/-- R66, R67, R131: the forms an output can take. An error carries the value 0 and no trace; a trace copies the value of
an OK response. -/
def Output.wellFormed (o : Output) : Bool :=
  match o.response.status, o.trace with
  | .ok, none => true
  | .ok, some probe => o.response.value == probe
  | .invalidInput, none => o.response.value == 0
  | .illegalCommand, none => o.response.value == 0
  | .invalidInput, some _ => false
  | .illegalCommand, some _ => false

/-- The invariant of every step: the block has been reset, and every output shown so far has a form of R66, R67, R131. -/
abbrev State.Inv (s : State) : Prop := s.hasReset = true ∧ ∀ o ∈ s.outputs, o.wellFormed = true

/-- R34: the whole blocks of a byte sequence, `b_(4j)` to `b_(4j+3)`, in order. -/
def wholeBlocks : List Byte → List (Vector Byte 4)
  | b0 :: b1 :: b2 :: b3 :: rest => #v[b0, b1, b2, b3] :: wholeBlocks rest
  | _ => []

/-- R34: `H_q`, where `H_0 = seed` and `H_(j+1) = block_mix(H_j, b_(4j), b_(4j+1), b_(4j+2), b_(4j+3))`. -/
def committed (seed : Word) (bs : List Byte) : Word := (wholeBlocks bs).foldl blockMix seed

/-- R34: the bytes after the last whole block. -/
def tailBytes (bs : List Byte) : List Byte := bs.drop (4 * (bs.length / 4))

/-- R100: `b_0 | b_1<<8 | b_2<<16 | ...`, the little-endian word of up to four bytes. -/
def leWord : List Byte → Word
  | [] => 0#32
  | b :: rest => b.setWidth 32 ||| (leWord rest) <<< 8

/-- R100: the probe of the last push of a non-empty byte sequence that follows a fresh seed. -/
def closedProbe (seed : Word) (bs : List Byte) : Word :=
  if bs.length % 4 = 0 then committed seed bs
  else fmix32 (committed seed bs ^^^ kmix (leWord (tailBytes bs)) ^^^ BitVec.ofNat 32 bs.length)

/-- R101: the key scramble of the published MurmurHash3_x86_32. The published hash is written here from general knowledge
(log entry 19), with its own literals and the library's rotation, and shares no definition with the machine. -/
def publishedScramble (k : Word) : Word := (k * 0xcc9e2d51#32).rotateLeft 15 * 0x1b873593#32

/-- R101: one round of the published hash's body. -/
def publishedRound (h k : Word) : Word := (h ^^^ publishedScramble k).rotateLeft 13 * 5#32 + 0xe6546b64#32

/-- R101: the finalizer of the published hash. -/
def publishedFinal (h : Word) : Word :=
  let h1 := (h ^^^ (h >>> 16)) * 0x85ebca6b#32
  let h2 := (h1 ^^^ (h1 >>> 13)) * 0xc2b2ae35#32
  h2 ^^^ (h2 >>> 16)

/-- R101: the words of the published hash's body, four bytes each, the first byte lowest. -/
def publishedWords : List Byte → List Word
  | b0 :: b1 :: b2 :: b3 :: rest => (b3 ++ b2 ++ b1 ++ b0) :: publishedWords rest
  | _ => []

/-- R101: the word of the one to three bytes after the body, the first byte lowest; zero where there are none. -/
def publishedTail : List Byte → Word
  | _ :: _ :: _ :: _ :: rest => publishedTail rest
  | [b0, b1, b2] => 0#8 ++ b2 ++ b1 ++ b0
  | [b0, b1] => 0#16 ++ b1 ++ b0
  | [b0] => 0#24 ++ b0
  | [] => 0#32

/-- R101: the published MurmurHash3_x86_32 of a byte sequence, for cross-checking only (log entry 19). -/
def publishedHash (seed : Word) (bs : List Byte) : Word :=
  publishedFinal ((publishedWords bs).foldl publishedRound seed ^^^ publishedScramble (publishedTail bs) ^^^
    BitVec.ofNat 32 bs.length)

/-- The caller presents a PUSH of a byte. -/
def Input.pushByte (b : Byte) : Input := .command (encode (.push (b.setWidth 32)))

/-- A CONSTRUCT or a RESET: what begins a new byte stream. -/
def Input.opensStream : Input → Bool
  | .command w =>
    match decode w with
    | .legal (.construct _) => true
    | .legal (.reset _) => true
    | .legal (.length _) => false
    | .legal (.push _) => false
    | .illegal _ => false
  | .rst _ => false

/-- A PUSH whose operand is a byte. -/
def Input.pushes : Input → Bool
  | .command w =>
    match decode w with
    | .legal (.push value) => decide (value.toNat ≤ 255)
    | .legal (.construct _) => false
    | .legal (.reset _) => false
    | .legal (.length _) => false
    | .illegal _ => false
  | .rst _ => false

/-- R100: LENGTH and the commands that end in an error; they write no state of the block. -/
def Input.neutral : Input → Bool
  | .command w =>
    match decode w with
    | .legal (.length _) => true
    | .legal (.push value) => decide (255 < value.toNat)
    | .illegal _ => true
    | .legal (.construct _) => false
    | .legal (.reset _) => false
  | .rst _ => false

/-- Whether an action is a command, and not an assertion of `rst`. -/
def Input.isCommand : Input → Bool
  | .command _ => true
  | .rst _ => false

/-- R129: `zs` is some interleaving of the streams of two callers, each kept in its own order. -/
inductive Interleaves : List Input → List Input → List Input → Prop where
  | done : Interleaves [] [] []
  | left (x : Input) {xs ys zs : List Input} : Interleaves xs ys zs → Interleaves (x :: xs) ys (x :: zs)
  | right (y : Input) {xs ys zs : List Input} : Interleaves xs ys zs → Interleaves xs (y :: ys) (y :: zs)

/-- The probes shown so far, oldest first (R131). -/
def State.probes (s : State) : List Word := s.outputs.filterMap (·.trace)

/-- R30: two states of the block that agree but for the slots at or above the phase. -/
def Hasher.SameButStale (j k : Hasher) : Prop :=
  j.seed = k.seed ∧ j.h1 = k.h1 ∧ j.totalLen = k.totalLen ∧
    ∀ i : Fin 4, i < phase j.totalLen → j.buf[i] = k.buf[i]

end Sys2Proof.Machine
end

