-- ==== Sys2Proof/Certificates/Slice0/Obligations.lean ====
section
/-! DEFINITION. The statements of this model, for the provers. Each docstring names the rule of the spec it formalises, or
says that it is derived. An equation `exec i s = .next { s with … }` also states the frame: every field it does not name is
unchanged. -/

open Sys2Proof Sys2Proof.Machine

/-! ### The lifecycle commands -/

/-- R80: a word with opcode 0x01 is CONSTRUCT of its operand; CONSTRUCT completes from every state with the given values and
the response `{OK, 0}`, whatever the earlier state; with seed 0 it leaves the power-on state. -/
def Obligations.ConstructLoadsSeedAndClears : Prop :=
  (∀ seedIn : Word, decode (0x01#8 ++ seedIn) = .legal (.construct seedIn)) ∧
  (∀ (seedIn : Word) (s : State), exec (.construct seedIn) s = .next { s with
      hasher := { seed := seedIn, h1 := seedIn, totalLen := 0#32, buf := #v[0#8, 0#8, 0#8, 0#8] }
      outputs := s.outputs ++ [{ response := { status := .ok, value := 0#32 }, trace := none }] }) ∧
  (∀ s t : State, exec (.construct 0#32) s = .next t → t.hasher = State.reset.hasher)

/-- R81: a word with opcode 0x02 is RESET whatever its operand; RESET completes from every state with the given values and the
response `{OK, 0}`, keeps the seed, is idempotent, changes nothing right after a CONSTRUCT or the power-on reset, and leaves the
state of a freshly constructed hasher of the same seed. -/
def Obligations.ResetRestoresSeededState : Prop :=
  (∀ o : Word, decode (0x02#8 ++ o) = .legal (.reset o)) ∧
  (∀ (o : Word) (s : State), exec (.reset o) s = .next { s with
      hasher := { seed := s.hasher.seed, h1 := s.hasher.seed, totalLen := 0#32, buf := #v[0#8, 0#8, 0#8, 0#8] }
      outputs := s.outputs ++ [{ response := { status := .ok, value := 0#32 }, trace := none }] }) ∧
  (∀ (o p : Word) (s t u : State), exec (.reset o) s = .next t → exec (.reset p) t = .next u → u.hasher = t.hasher) ∧
  (∀ (o seedIn : Word) (s t u : State),
      exec (.construct seedIn) s = .next t → exec (.reset o) t = .next u → u.hasher = t.hasher) ∧
  (∀ (o : Word) (u : State), exec (.reset o) State.reset = .next u → u.hasher = State.reset.hasher) ∧
  (∀ (o : Word) (s t u : State),
      exec (.reset o) s = .next t → exec (.construct s.hasher.seed) s = .next u → t.hasher = u.hasher)

/-- From R82: a word with opcode 0x03 is LENGTH whatever its operand; LENGTH completes from every state, answers
`{OK, total_len}` and writes no state element. -/
def Obligations.LengthAnswersCountAndWritesNothing : Prop :=
  (∀ o : Word, decode (0x03#8 ++ o) = .legal (.length o)) ∧
  (∀ (o : Word) (s : State), exec (.length o) s = .next { s with
      outputs := s.outputs ++ [{ response := { status := .ok, value := s.hasher.totalLen }, trace := none }] })

/-- R65: RESET and LENGTH with any operand execute exactly like the same command with a zero operand. -/
def Obligations.ReservedOperandIsIgnored : Prop :=
  ∀ (o : Word) (s : State),
    exec (.reset o) s = exec (.reset 0#32) s ∧ exec (.length o) s = exec (.length 0#32) s

/-! ### PUSH -/

/-- R96: a word with opcode 0x04 is PUSH of its operand. PUSH of a byte completes from every state: it writes the byte to
`buf[total_len mod 4]` (the count before), adds 1 to `total_len` modulo 2^32, commits `block_mix` and answers the new `h1` where
the new count leaves phase 0, and otherwise keeps `h1` and answers the tail probe; the trace carries the probe. A larger operand
raises InvalidInput and writes nothing. -/
def Obligations.PushStagesByteAndAnswersProbe : Prop :=
  (∀ v : Word, decode (0x04#8 ++ v) = .legal (.push v)) ∧
  (∀ (v : Word) (s : State) (buf' : Vector Byte 4) (len' : Word), v.toNat ≤ 255 →
    buf' = s.hasher.buf.set (s.hasher.totalLen.toNat % 4) (v.setWidth 8) (Nat.mod_lt _ (Nat.succ_pos 3)) →
    len'.toNat = (s.hasher.totalLen.toNat + 1) % 2 ^ 32 →
    exec (.push v) s =
      if len'.toNat % 4 = 0 then
        .next { s with
          hasher := { seed := s.hasher.seed, h1 := blockMix s.hasher.h1 buf', totalLen := len', buf := buf' }
          outputs := s.outputs ++ [{ response := { status := .ok, value := blockMix s.hasher.h1 buf' }
                                     trace := some (blockMix s.hasher.h1 buf') }] }
      else
        .next { s with
          hasher := { seed := s.hasher.seed, h1 := s.hasher.h1, totalLen := len', buf := buf' }
          outputs := s.outputs ++ [{ response := { status := .ok
                                                   value := tailProbe s.hasher.h1 buf' (len'.toNat % 4) len' }
                                     trace := some (tailProbe s.hasher.h1 buf' (len'.toNat % 4) len') }] }) ∧
  (∀ (v : Word) (s : State), 255 < v.toNat → exec (.push v) s = .next { s with
      outputs := s.outputs ++ [{ response := { status := .invalidInput, value := 0#32 }, trace := none }] })

/-- R121: a PUSH whose operand is 0x100 to 0xFFFFFFFF (the document's "-1" among them) answers `{INVALID_INPUT, 0}`, writes no state
element, presents no trace and is not counted by LENGTH. -/
def Obligations.PushOfNoByteIsInvalidInput : Prop :=
  (∀ (v : Word) (s : State), 0x100 ≤ v.toNat → exec (.push v) s = .next { s with
      outputs := s.outputs ++ [{ response := { status := .invalidInput, value := 0#32 }, trace := none }] }) ∧
  (∀ s : State, exec (.push (-1)) s = .next { s with
      outputs := s.outputs ++ [{ response := { status := .invalidInput, value := 0#32 }, trace := none }] }) ∧
  (∀ (v o : Word) (s t u : State), 0x100 ≤ v.toNat → exec (.push v) s = .next t → exec (.length o) t = .next u →
      u.outputs.getLast? = some { response := { status := .ok, value := s.hasher.totalLen }, trace := none })

/-- R98: a PUSH that completes a block answers `block_mix(h1, buf')` exactly, and that is the committed `h1`. -/
def Obligations.BoundaryProbeIsTheRawAccumulator : Prop :=
  ∀ (v : Word) (s : State), v.toNat ≤ 255 → s.hasher.totalLen.toNat % 4 = 3 →
    ∃ t, exec (.push v) s = .next t ∧
      t.hasher.h1 = blockMix s.hasher.h1 #v[s.hasher.buf[0], s.hasher.buf[1], s.hasher.buf[2], v.setWidth 8] ∧
      t.outputs = s.outputs ++ [{ response := { status := .ok, value := t.hasher.h1 }, trace := some t.hasher.h1 }]

/-- From R97: a PUSH that leaves phase 1, 2 or 3 keeps the seed and `h1`, and every slot but `buf[total_len mod 4]`. -/
def Obligations.TailPushKeepsAccumulator : Prop :=
  ∀ (v : Word) (s : State), v.toNat ≤ 255 → s.hasher.totalLen.toNat % 4 ≠ 3 →
    ∃ t, exec (.push v) s = .next t ∧
      t.hasher.h1 = s.hasher.h1 ∧ t.hasher.seed = s.hasher.seed ∧
      t.hasher.totalLen = s.hasher.totalLen + 1#32 ∧
      ∀ i : Fin 4, t.hasher.buf[i] =
        if i.val = s.hasher.totalLen.toNat % 4 then v.setWidth 8 else s.hasher.buf[i]

/-- From R29: a successful PUSH takes the phase from `n` to `(n+1) mod 4`, also where the count wraps from 0xFFFFFFFF to 0, and
commits to `h1` only on the transition into phase 0; the initial phase is 0. -/
def Obligations.PushAdvancesThePhase : Prop :=
  (∀ (v : Word) (s : State), v.toNat ≤ 255 → ∃ t, exec (.push v) s = .next t ∧
    (phase t.hasher.totalLen).val = ((phase s.hasher.totalLen).val + 1) % 4 ∧
    ((phase t.hasher.totalLen).val ≠ 0 → t.hasher.h1 = s.hasher.h1)) ∧
  phase State.reset.hasher.totalLen = 0

/-! ### Arithmetic -/

/-- R10: the primitives, as arithmetic on numbers; `rotl32` is the true rotation and equals the form reduced once at the end. -/
def Obligations.PrimitivesAreModularArithmetic : Prop :=
  (∀ a b : Word, (add32 a b).toNat = (a.toNat + b.toNat) % 2 ^ 32) ∧
  (∀ a b : Word, (mul32 a b).toNat = (a.toNat * b.toNat) % 2 ^ 32) ∧
  (∀ (x : Word) (n : Nat), n ≤ 31 → (shl32 x n).toNat = (x.toNat * 2 ^ n) % 2 ^ 32) ∧
  (∀ (x : Word) (n : Nat), n ≤ 31 → (shr32 x n).toNat = x.toNat / 2 ^ n) ∧
  (∀ (x : Word) (n : Nat), 1 ≤ n → n ≤ 31 →
    rotl32 x n = shl32 x n ||| shr32 x (32 - n) ∧ rotl32 x n = x.rotateLeft n ∧
    (rotl32 x n).toNat = ((x.toNat * 2 ^ n) ||| (x.toNat / 2 ^ (32 - n))) % 2 ^ 32) ∧
  (∀ a b : Word, (a ^^^ b).toNat = a.toNat ^^^ b.toNat ∧ (a ||| b).toNat = a.toNat ||| b.toNat)

/-- R90: the key mix step by step, with its literals; 0 goes to 0, it is a bijection, and the example value. -/
def Obligations.KeyMixFormulaAndBijection : Prop :=
  (∀ k : Word, kmix k = (k * 0xcc9e2d51#32).rotateLeft 15 * 0x1b873593#32) ∧
  kmix 0#32 = 0#32 ∧ Function.Bijective kmix ∧ kmix 0x00000001#32 = 0xc3539a5d#32

/-- R91: the block word is the little-endian number of the four slots, and the example value. -/
def Obligations.BlockWordIsLittleEndian : Prop :=
  (∀ buf : Vector Byte 4, (blockWord buf).toNat =
    buf[0].toNat + 2 ^ 8 * buf[1].toNat + 2 ^ 16 * buf[2].toNat + 2 ^ 24 * buf[3].toNat) ∧
  blockWord #v[0x00#8, 0x01#8, 0x02#8, 0x03#8] = 0x03020100#32

/-- R92: the committed block step, with its literals; reducing only after the add gives the same value; the corner and the example. -/
def Obligations.BlockMixFormula : Prop :=
  (∀ (h : Word) (buf : Vector Byte 4),
    blockMix h buf = (h ^^^ kmix (blockWord buf)).rotateLeft 13 * 5#32 + 0xe6546b64#32) ∧
  (∀ (h : Word) (buf : Vector Byte 4), (blockMix h buf).toNat =
    (((h ^^^ kmix (blockWord buf)).rotateLeft 13).toNat * 5 + 0xe6546b64) % 2 ^ 32) ∧
  blockMix 0#32 #v[0#8, 0#8, 0#8, 0#8] = 0xe6546b64#32 ∧
  kmix 0x03020100#32 = 0xe3fd86a5#32 ∧ rotl32 0xe3fd86a5#32 13 = 0xb0d4bc7f#32 ∧
  blockMix 0#32 #v[0x00#8, 0x01#8, 0x02#8, 0x03#8] = 0x5a7c19df#32

/-- R93: each present byte goes to bits `8i+7:8i`, no slot `i >= n` is read, or and xor give the same word, and the examples. -/
def Obligations.TailWordHoldsThePresentBytes : Prop :=
  (∀ buf : Vector Byte 4, (tailWord buf 1).toNat = buf[0].toNat) ∧
  (∀ buf : Vector Byte 4, (tailWord buf 2).toNat = buf[0].toNat + 2 ^ 8 * buf[1].toNat) ∧
  (∀ buf : Vector Byte 4, (tailWord buf 3).toNat = buf[0].toNat + 2 ^ 8 * buf[1].toNat + 2 ^ 16 * buf[2].toNat) ∧
  (∀ (buf other : Vector Byte 4) (n : Nat), 1 ≤ n → n ≤ 3 → (∀ i : Fin 4, i.val < n → buf[i] = other[i]) →
    tailWord buf n = tailWord other n) ∧
  (∀ buf : Vector Byte 4, tailWord buf 2 = (buf[1].setWidth 32 <<< 8) ^^^ buf[0].setWidth 32) ∧
  (∀ buf : Vector Byte 4, tailWord buf 3 =
    (buf[2].setWidth 32 <<< 16) ^^^ (buf[1].setWidth 32 <<< 8) ^^^ buf[0].setWidth 32) ∧
  (∀ x : Byte, tailWord #v[0x00#8, 0x01#8, 0x02#8, x] 3 = 0x00020100#32) ∧
  (∀ x y : Byte, tailWord #v[0x48#8, 0x65#8, x, y] 2 = 0x00006548#32) ∧
  (∀ x y z : Byte, tailWord #v[0xFF#8, x, y, z] 1 = 0x000000FF#32)

/-- R94: the finalization mix step by step, with its literals and logical shifts; 0 goes to 0, it is a bijection, and the examples. -/
def Obligations.FinalizationFormulaAndBijection : Prop :=
  (∀ p p1 p2 p3 p4 p5 : Word,
    p1 = p ^^^ (p >>> 16) → p2 = p1 * 0x85ebca6b#32 → p3 = p2 ^^^ (p2 >>> 13) → p4 = p3 * 0xc2b2ae35#32 →
    p5 = p4 ^^^ (p4 >>> 16) → fmix32 p = p5) ∧
  fmix32 0#32 = 0#32 ∧ Function.Bijective fmix32 ∧
  fmix32 0x00000001#32 = 0x514e28b7#32 ∧ fmix32 0xFFFFFFFF#32 = 0x81f16f39#32

/-- R95: the tail probe; a tail of zero bytes gives `fmix32(h ^ len)`; with `h = 0` and one zero byte it is 0x514e28b7. -/
def Obligations.TailProbeFormula : Prop :=
  (∀ (h : Word) (buf : Vector Byte 4) (n : Nat) (len : Word), 1 ≤ n → n ≤ 3 →
    tailProbe h buf n len = fmix32 ((h ^^^ kmix (tailWord buf n)) ^^^ len)) ∧
  (∀ (h : Word) (buf : Vector Byte 4) (n : Nat) (len : Word), 1 ≤ n → n ≤ 3 →
    (∀ i : Fin 4, i.val < n → buf[i] = 0#8) → tailProbe h buf n len = fmix32 (h ^^^ len)) ∧
  (∀ buf : Vector Byte 4, buf[0] = 0#8 → tailProbe 0#32 buf 1 1#32 = 0x514e28b7#32)

/-- From R24 and R25: the hardwired literals. -/
def Obligations.LiteralsAreHardwired : Prop :=
  c1.toNat = 0xcc9e2d51 ∧ c2.toNat = 0x1b873593 ∧ mixMul.toNat = 5 ∧ mixAdd.toNat = 0xe6546b64 ∧
  finalMul1.toNat = 0x85ebca6b ∧ finalMul2.toNat = 0xc2b2ae35 ∧ keyRot = 15 ∧ mixRot = 13 ∧
  finalShift1 = 16 ∧ finalShift2 = 13 ∧ finalShift3 = 16

/-! ### Encoding -/

/-- R63: the decoding of every word, with the opcode `w[39:32]` and the operand `w[31:0]` read as numbers. -/
def Obligations.DecodeFollowsTheOpcodeMap : Prop :=
  ∀ (w : CommandWord) (operand : Word), operand.toNat = w.toNat % 2 ^ 32 →
    (w.toNat / 2 ^ 32 = 1 → decode w = .legal (.construct operand)) ∧
    (w.toNat / 2 ^ 32 = 2 → decode w = .legal (.reset operand)) ∧
    (w.toNat / 2 ^ 32 = 3 → decode w = .legal (.length operand)) ∧
    (w.toNat / 2 ^ 32 = 4 → decode w = .legal (.push operand)) ∧
    (w.toNat / 2 ^ 32 = 0 ∨ 5 ≤ w.toNat / 2 ^ 32 →
      ∃ opcode : Byte, opcode.toNat = w.toNat / 2 ^ 32 ∧ decode w = .illegal opcode)

/-- Derived from R60 to R63: decoding the word of a command gives it back, for every command and operand. That RESET and LENGTH carry
their reserved operand is the model's choice (log entry 6, DESIGN CHOICE). -/
def Obligations.DecodeInvertsEncode : Prop :=
  ∀ i : Instr, decode (encode i) = .legal i

/-- The model's choice (log entry 6, DESIGN CHOICE), not a rule of the spec: a legal word is the word of the command it decodes to,
so no bit is dropped. For CONSTRUCT and PUSH it follows from R60 to R63. For RESET and LENGTH it holds because the model's decoded
command keeps the reserved operand, which R63 drops and R73 writes as zero. -/
def Obligations.EncodeInvertsDecode : Prop :=
  ∀ (w : CommandWord) (i : Instr), decode w = .legal i → encode i = w

/-- From the head of `30_encoding.md`: a row of the opcode table selects `w` by `(w & mask) == match`; exactly the row of the decoded
command selects a legal word, and no row selects an illegal one. -/
def Obligations.OpcodeTableSelectsTheDecodedCommand : Prop :=
  ∀ w : CommandWord,
    (∀ i, decode w = .legal i → (opcodeTable.filter (·.selects w)).map (·.mnemonic) = [i.mnemonic]) ∧
    (∀ opcode, decode w = .illegal opcode → opcodeTable.filter (·.selects w) = [])

/-- From the vectors V-D1 to V-D6 and the words of `95_test_vectors.md`: words of every command and illegal words. -/
def Obligations.SampleWordsDecode : Prop :=
  decode 0x01000004D2#40 = .legal (.construct 0x000004D2#32) ∧
  decode 0x01FFFFFFFF#40 = .legal (.construct 0xFFFFFFFF#32) ∧
  decode 0x0200000000#40 = .legal (.reset 0#32) ∧
  decode 0x02DEADBEEF#40 = .legal (.reset 0xDEADBEEF#32) ∧
  decode 0x0300000000#40 = .legal (.length 0#32) ∧
  decode 0x0300000001#40 = .legal (.length 1#32) ∧
  decode 0x0400000048#40 = .legal (.push 0x48#32) ∧
  decode 0x0400000100#40 = .legal (.push 0x100#32) ∧
  decode 0x0000000000#40 = .illegal 0x00#8 ∧
  decode 0x0500000000#40 = .illegal 0x05#8 ∧
  decode 0xFF12345678#40 = .illegal 0xFF#8 ∧
  decode 0x8400000001#40 = .illegal 0x84#8

/-- R67: the codes of the statuses; no status has the reserved code 3, which names none. -/
def Obligations.StatusCodes : Prop :=
  Status.ok.code = 0#2 ∧ Status.invalidInput.code = 1#2 ∧ Status.illegalCommand.code = 2#2 ∧
  (∀ st : Status, st.code ≠ 3#2 ∧ Status.ofCode st.code = some st) ∧ Status.ofCode 3#2 = none

/-! ### The port and the step -/

/-- Derived from R69, R48 and R63, with the caller's actions held in the state (log entry 1): when the next action of the caller is a command word that decodes to a command, the step is the
meaning of that command on the state with the action taken off the caller's list. -/
def Obligations.StepRunsTheDecodedCommand : Prop :=
  ∀ (s : State) (w : CommandWord) (rest : List Input) (i : Instr), s.hasReset = true →
    s.inputs = .command w :: rest → decode w = .legal i → step s = exec i { s with inputs := rest }

/-- R122: a word whose opcode is 0x00 or 0x05 to 0xFF, whatever its operand, answers `{ILLEGAL_COMMAND, 0}`, writes no state
element and presents no trace. -/
def Obligations.IllegalOpcodeRaisesIllegalCommand : Prop :=
  ∀ (s : State) (opcode : Byte) (operand : Word) (rest : List Input), s.hasReset = true →
    s.inputs = .command (opcode ++ operand) :: rest → opcode.toNat = 0 ∨ 5 ≤ opcode.toNat →
    step s = .next { s with
      inputs := rest
      outputs := s.outputs ++ [{ response := { status := .illegalCommand, value := 0#32 }, trace := none }] }

/-- R66: every accepted command produces exactly one response, after those of the commands before it, and its value. -/
def Obligations.OneResponsePerAcceptedCommand : Prop :=
  ∀ (s : State) (w : CommandWord) (rest : List Input), s.hasReset = true → s.inputs = .command w :: rest →
    ∃ (t : State) (o : Output), step s = .next t ∧ t.inputs = rest ∧ t.outputs = s.outputs ++ [o] ∧
      (∀ v, decode w = .legal (.push v) → v.toNat ≤ 255 →
        o.response = ⟨.ok, s.hasher.probe (v.setWidth 8)⟩) ∧
      (∀ v, decode w = .legal (.push v) → 255 < v.toNat → o.response = ⟨.invalidInput, 0#32⟩) ∧
      (∀ x, decode w = .legal (.length x) → o.response = ⟨.ok, s.hasher.totalLen⟩) ∧
      (∀ x, decode w = .legal (.reset x) → o.response = ⟨.ok, 0#32⟩) ∧
      (∀ x, decode w = .legal (.construct x) → o.response = ⟨.ok, 0#32⟩) ∧
      (∀ x, decode w = .illegal x → o.response = ⟨.illegalCommand, 0#32⟩)

/-- R120: the two errors and only these: their status codes, exactly when each is raised, and that the response value is 0 and no
state element is written. -/
def Obligations.ErrorsAreExactlyTheTwo : Prop :=
  ∀ (s : State) (w : CommandWord) (rest : List Input), s.hasReset = true → s.inputs = .command w :: rest →
    ∃ (t : State) (o : Output), step s = .next t ∧ t.outputs = s.outputs ++ [o] ∧
      (o.response.status.code = 1#2 ↔ ∃ v, decode w = .legal (.push v) ∧ 0xFF < v.toNat) ∧
      (o.response.status.code = 2#2 ↔ w.toNat / 2 ^ 32 ∉ [1, 2, 3, 4]) ∧
      (o.response.status.code = 0#2 ∨ o.response.status.code = 1#2 ∨ o.response.status.code = 2#2) ∧
      (o.response.status.code ≠ 0#2 → o.response.value = 0#32 ∧ t.hasher = s.hasher)

/-- R126: after an error the next action of the caller takes effect as if the failed command had not been issued: the run over both
leaves what the step of the second alone leaves, but for the error's own response. -/
def Obligations.StreamContinuesAfterAnError : Prop :=
  ∀ (s : State) (w : CommandWord) (x : Input) (rest : List Input), s.hasReset = true →
    s.inputs = .command w :: x :: rest →
    (∃ v, decode w = .legal (.push v) ∧ 255 < v.toNat) ∨ (∃ op, decode w = .illegal op) →
    ∃ t u : State, run 2 s = .next t ∧ step { s with inputs := x :: rest } = .next u ∧
      t.hasher = u.hasher ∧ t.inputs = u.inputs ∧
      ∃ e : Output, e.response.status ≠ .ok ∧ t.outputs = s.outputs ++ e :: u.outputs.drop s.outputs.length

/-- R142: an assertion of `rst` loads the power-on state from every state; a command it interrupts has no effect and no
response. -/
def Obligations.RstAbandonsTheCommandInProgress : Prop :=
  ∀ (s : State) (interrupted : Option CommandWord) (rest : List Input), s.inputs = .rst interrupted :: rest →
    step s = .next { s with
      hasher := { seed := 0#32, h1 := 0#32, totalLen := 0#32, buf := #v[0#8, 0#8, 0#8, 0#8] }
      hasReset := true
      inputs := rest }

/-- R143: a command presented before the first power-on reset is refused, and the machine starts after it, from the power-on state. -/
def Obligations.CommandBeforeFirstResetIsRefused : Prop :=
  (∀ (s : State) (w : CommandWord) (rest : List Input), s.hasReset = false → s.inputs = .command w :: rest →
    step s = .refused .beforeFirstReset) ∧
  State.reset.hasReset = true ∧
  State.reset.hasher = { seed := 0#32, h1 := 0#32, totalLen := 0#32, buf := #v[0#8, 0#8, 0#8, 0#8] }

/-- From R35 and R133: with no action of the caller a step changes nothing. The step that idles is this model's (log entry 4). -/
def Obligations.IdleBlockHoldsItsState : Prop :=
  ∀ s : State, s.inputs = [] → step s = .next s

/-- R102: `CANONICAL` is the value taken, every rotate of the block is the true rotation, and `PROTOTYPE` is refused. -/
def Obligations.RotateModeIsCanonical : Prop :=
  Config.rotMode = .canonical ∧ (∀ s : State, step s = stepUnder .canonical s) ∧
  (∀ s : State, stepUnder .prototype s = .refused .prototypeRotate) ∧
  (∀ x : Word, rotl32 x keyRot = x.rotateLeft 15) ∧ (∀ x : Word, rotl32 x mixRot = x.rotateLeft 13)

/-- From R131 and R68: when `TRACE_EN`, the trace port shows exactly the probe of each successful PUSH, with the response that carries
it; when not, it shows nothing. -/
def Obligations.TracePortCopiesSuccessfulProbes : Prop :=
  ∀ (s : State) (w : CommandWord) (rest : List Input), s.hasReset = true → s.inputs = .command w :: rest →
    ∃ (t : State) (o : Output), step s = .next t ∧ t.outputs = s.outputs ++ [o] ∧
      o.tracePort false = none ∧
      (∀ p, o.tracePort true = some p ↔
        o.response = ⟨.ok, p⟩ ∧ ∃ v, decode w = .legal (.push v) ∧ v.toNat ≤ 255)

/-- From R140 and R141: the values the block's state holds right after power-on reset. -/
def Obligations.PowerOnValues : Prop :=
  State.reset.hasher.seed = 0#32 ∧ State.reset.hasher.h1 = 0#32 ∧ State.reset.hasher.totalLen = 0#32 ∧
  (∀ i : Fin 4, State.reset.hasher.buf[i] = 0#8)

/-! ### Rules about every step -/

/-- From R23: only CONSTRUCT and `rst` write the seed. -/
def Obligations.SeedIsWrittenOnlyByConstruct : Prop :=
  ∀ s t : State, step s = .next t → t.hasher.seed ≠ s.hasher.seed →
    ∃ (x : Input) (rest : List Input), s.inputs = x :: rest ∧
      ((∃ a, x = .rst a ∧ t.hasher.seed = 0#32) ∨
       (∃ w seedIn, x = .command w ∧ decode w = .legal (.construct seedIn) ∧ t.hasher.seed = seedIn))

/-- R146: `h1` is written only by a PUSH that leaves phase 0, RESET, CONSTRUCT or `rst`, each with its value. -/
def Obligations.AccumulatorIsWrittenOnlyAtBlockBoundaries : Prop :=
  ∀ s t : State, step s = .next t → t.hasher.h1 ≠ s.hasher.h1 →
    ∃ (x : Input) (rest : List Input), s.inputs = x :: rest ∧
      ((∃ a, x = .rst a ∧ t.hasher.h1 = 0#32) ∨
       (∃ w seedIn, x = .command w ∧ decode w = .legal (.construct seedIn) ∧ t.hasher.h1 = seedIn) ∨
       (∃ w o, x = .command w ∧ decode w = .legal (.reset o) ∧ t.hasher.h1 = s.hasher.seed) ∨
       (∃ w v, x = .command w ∧ decode w = .legal (.push v) ∧ v.toNat ≤ 255 ∧
          t.hasher.totalLen.toNat % 4 = 0 ∧ t.hasher.h1 = blockMix s.hasher.h1 t.hasher.buf))

/-- From R27: the only writers of `total_len`, each with its value. -/
def Obligations.CountIsWrittenOnlyByPushAndRestarts : Prop :=
  ∀ s t : State, step s = .next t → t.hasher.totalLen ≠ s.hasher.totalLen →
    ∃ (x : Input) (rest : List Input), s.inputs = x :: rest ∧
      (((∃ a, x = .rst a) ∨ (∃ w, x = .command w ∧ (.command w : Input).opensStream = true)) ∧
          t.hasher.totalLen = 0#32 ∨
       (∃ w v, x = .command w ∧ decode w = .legal (.push v) ∧ v.toNat ≤ 255 ∧
          t.hasher.totalLen.toNat = (s.hasher.totalLen.toNat + 1) % 2 ^ 32))

/-- R42: a step that changes a slot is a PUSH that writes its byte at `total_len mod 4`, the count before, or a RESET,
CONSTRUCT or `rst`, which leave every slot zero. -/
def Obligations.SlotIsWrittenOnlyByPushAndRestarts : Prop :=
  ∀ (s t : State) (i : Fin 4), step s = .next t → t.hasher.buf[i] ≠ s.hasher.buf[i] →
    ∃ (x : Input) (rest : List Input), s.inputs = x :: rest ∧
      (((∃ a, x = .rst a) ∨ (∃ w, x = .command w ∧ (.command w : Input).opensStream = true)) ∧
          (∀ j : Fin 4, t.hasher.buf[j] = 0#8) ∨
       (∃ w v, x = .command w ∧ decode w = .legal (.push v) ∧ v.toNat ≤ 255 ∧
          i.val = s.hasher.totalLen.toNat % 4 ∧ t.hasher.buf[i] = v.setWidth 8))

/-- From R149: no command stops the block. Once it has been reset, a run of any length answers a next state, and the block has
still been reset. That a step with no action left idles is this model's (log entry 4). -/
def Obligations.NoCommandStopsTheBlock : Prop :=
  ∀ (n : Nat) (s : State), s.hasReset = true → ∃ t : State, run n s = .next t ∧ t.hasReset = true

/-- Derived from R66, R67, R120 and R131: the invariant of every step: the block has been reset and every output shown has one of the
forms the spec gives (an error carries 0 and no trace; a trace copies the value of an OK response). -/
def Obligations.StepKeepsOutputForms : Prop :=
  ∀ s t : State, s.Inv → step s = .next t → t.Inv

/-- The model's choice (log entry 7, DESIGN CHOICE), not a rule of the spec: the invariant of StepKeepsOutputForms, which speaks only of
the model's own fields `hasReset` and `outputs`, holds right after reset, where the first is true and the second empty. -/
def Obligations.PowerOnStateMeetsTheInvariant : Prop := State.reset.Inv

/-! ### Runs -/

/-- R30: the stale slots cannot be observed. From two states that agree but for slots at or above the phase, and that see the same
actions, a run of any length shows the same outputs and leaves two states that again agree but for stale slots. -/
def Obligations.StaleSlotsAreUnobservable : Prop :=
  ∀ (n : Nat) (s t : State), s.hasReset = true → t.hasReset = true → s.inputs = t.inputs → s.outputs = t.outputs →
    s.hasher.SameButStale t.hasher →
    ∃ s' t' : State, run n s = .next s' ∧ run n t = .next t' ∧ s'.inputs = t'.inputs ∧ s'.outputs = t'.outputs ∧
      s'.hasher.SameButStale t'.hasher

/-- R34: after a CONSTRUCT or RESET and successful pushes of the bytes `bs`, fewer than 2^32, with commands that write no state in
between (R100), `h1` has absorbed exactly the whole blocks, `total_len` counts the bytes and the first slots hold the tail. -/
def Obligations.AccumulatorReflectsWholeBlocksOnly : Prop :=
  ∀ (s : State) (w : CommandWord) (seed : Word) (bs : List Byte) (ys zs rest : List Input), s.hasReset = true →
    (decode w = .legal (.construct seed) ∨ (∃ o, decode w = .legal (.reset o)) ∧ seed = s.hasher.seed) →
    bs.length < 2 ^ 32 → Interleaves (bs.map Input.pushByte) ys zs → (∀ y ∈ ys, y.neutral = true) →
    s.inputs = .command w :: (zs ++ rest) →
    ∃ t : State, run (zs.length + 1) s = .next t ∧ t.inputs = rest ∧ t.hasher.seed = seed ∧
      t.hasher.h1 = committed seed bs ∧ t.hasher.totalLen.toNat = bs.length ∧
      ∀ i : Fin 4, i.val < bs.length % 4 → bs[4 * (bs.length / 4) + i.val]? = some t.hasher.buf[i]

/-- R100: after a CONSTRUCT or RESET, the probe of the `m`-th of fewer than 2^32 pushes is the closed form of the seed and the first `m`
bytes, with LENGTH and failing commands anywhere in between; no other probe is shown. -/
def Obligations.ProbeSequenceInClosedForm : Prop :=
  ∀ (s : State) (w : CommandWord) (seed : Word) (bs : List Byte) (ys zs rest : List Input), s.hasReset = true →
    (decode w = .legal (.construct seed) ∨ (∃ o, decode w = .legal (.reset o)) ∧ seed = s.hasher.seed) →
    bs.length < 2 ^ 32 → Interleaves (bs.map Input.pushByte) ys zs → (∀ y ∈ ys, y.neutral = true) →
    s.inputs = .command w :: (zs ++ rest) →
    ∃ t : State, run (zs.length + 1) s = .next t ∧
      t.probes = s.probes ++ (List.range bs.length).map fun j => closedProbe seed (bs.take (j + 1))

/-- From R82: after a CONSTRUCT or RESET and any commands that are neither, LENGTH answers the number of successful pushes since,
modulo 2^32. -/
def Obligations.LengthCountsSuccessfulPushes : Prop :=
  ∀ (s : State) (w l : CommandWord) (o : Word) (xs rest : List Input), s.hasReset = true →
    (.command w : Input).opensStream = true → decode l = .legal (.length o) →
    (∀ x ∈ xs, x.isCommand = true ∧ x.opensStream = false) →
    s.inputs = .command w :: (xs ++ .command l :: rest) →
    ∃ t : State, run (xs.length + 2) s = .next t ∧ t.inputs = rest ∧
      t.outputs.getLast? =
        some { response := { status := .ok, value := BitVec.ofNat 32 (xs.filter Input.pushes).length }, trace := none }

/-- Derived from R97 and R100: LENGTH and failing commands, interleaved in any order with any actions of the caller, disturb neither the
state of the block nor any probe. -/
def Obligations.NeutralCommandsDisturbNothing : Prop :=
  ∀ (s : State) (xs ys zs : List Input), s.hasReset = true → Interleaves xs ys zs → (∀ y ∈ ys, y.neutral = true) →
    ∃ t u : State, run zs.length { s with inputs := zs } = .next t ∧ run xs.length { s with inputs := xs } = .next u ∧
      t.hasher = u.hasher ∧ t.probes = u.probes

/-- Derived from R49, R66 and R129, with callers modelled as log entry 14 says: whatever order the streams of two callers take at the port, every action is taken, every command of
either caller gets one response, and the earlier responses stand. -/
def Obligations.InterleavedCallersAreSerialised : Prop :=
  ∀ (s : State) (xs ys zs : List Input), s.hasReset = true → Interleaves xs ys zs →
    ∃ (t : State) (new : List Output), run zs.length { s with inputs := zs } = .next t ∧ t.inputs = [] ∧
      t.outputs = s.outputs ++ new ∧
      new.length = (xs.filter Input.isCommand).length + (ys.filter Input.isCommand).length

/-- Derived from R101 and `90_conflicts.md` C1. After a CONSTRUCT or RESET and pushes of the bytes `bs`, at least one and fewer than
2^32, with LENGTH and failing commands anywhere in between, the last probe of the run is the published MurmurHash3_x86_32 of `bs`
where the last push is off a block boundary; on a boundary the probe is the accumulator itself, of which, xored with the length, the
published hash is the finalization. The published hash is general knowledge, written on its own and not from the machine's functions
(log entry 19, PRESUMED). -/
def Obligations.ProbeAgainstThePublishedHash : Prop :=
  ∀ (s : State) (w : CommandWord) (seed : Word) (bs : List Byte) (ys zs rest : List Input), s.hasReset = true →
    (decode w = .legal (.construct seed) ∨ (∃ o, decode w = .legal (.reset o)) ∧ seed = s.hasher.seed) →
    bs ≠ [] → bs.length < 2 ^ 32 → Interleaves (bs.map Input.pushByte) ys zs → (∀ y ∈ ys, y.neutral = true) →
    s.inputs = .command w :: (zs ++ rest) →
    ∃ (t : State) (probe : Word), run (zs.length + 1) s = .next t ∧ t.probes.getLast? = some probe ∧
      (bs.length % 4 ≠ 0 → probe = publishedHash seed bs) ∧
      (bs.length % 4 = 0 → probe = t.hasher.h1 ∧
        publishedHash seed bs = publishedFinal (probe ^^^ BitVec.ofNat 32 bs.length))

/-! ### The assembler -/

/-- From R73: the words of each line, and the refusal of a literal wider than its field. -/
def Obligations.AssemblerEncodesEachLine : Prop :=
  (∀ n : Nat, n < 2 ^ 32 → assemble (.construct (some n)) = some [0x01#8 ++ BitVec.ofNat 32 n]) ∧
  (∀ n : Nat, n < 2 ^ 32 → assemble (.push n) = some [0x04#8 ++ BitVec.ofNat 32 n]) ∧
  (∀ n : Nat, n < 2 ^ 40 → assemble (.word40 n) = some [BitVec.ofNat 40 n]) ∧
  assemble .reset = some [0x0200000000#40] ∧ assemble .length = some [0x0300000000#40] ∧
  (∀ n : Nat, 2 ^ 32 ≤ n → assemble (.construct (some n)) = none ∧ assemble (.push n) = none) ∧
  (∀ n : Nat, 2 ^ 40 ≤ n → assemble (.word40 n) = none)

/-- R74: CONSTRUCT with no operand expands to `CONSTRUCT 0`, and PUSHS to one PUSH per byte of its ASCII text, in text order, with no
terminator. -/
def Obligations.PseudoInstructionsExpand : Prop :=
  assemble (.construct none) = assemble (.construct (some 0)) ∧
  (∀ text : List Nat, (∀ c ∈ text, c < 128) →
    assemble (.pushs text) = some (text.map fun c => 0x04#8 ++ BitVec.ofNat 32 c))

/-- Derived from R65, R73 and R74: every word the assembler writes for a line other than `.word40` decodes to a well-formed command. -/
def Obligations.AssembledWordsAreWellFormed : Prop :=
  ∀ (line : AsmLine) (ws : List CommandWord), assemble line = some ws → (∀ n, line ≠ .word40 n) →
    ∀ w ∈ ws, ∃ i : Instr, decode w = .legal i ∧ i.wellFormed = true

/-- From R73: a decimal, a `0x` hexadecimal and a single-quoted literal are read as the numbers they write, here as the operand of PUSH.
The spaces, the digits' alphabet, the range of characters, and that a quoted `;` is the character and starts no comment are the
model's choice (log entry 17, DESIGN CHOICE). -/
def Obligations.LiteralsAreReadAsWritten : Prop :=
  (∀ ds : List Nat, ds ≠ [] → (∀ d ∈ ds, d < 10) →
    readAsmLine ("PUSH ".toList ++ ds.map Nat.digitChar) = some (.push (Nat.ofDigits 10 ds.reverse))) ∧
  (∀ ds : List Nat, ds ≠ [] → (∀ d ∈ ds, d < 16) →
    readAsmLine ("PUSH 0x".toList ++ ds.map Nat.digitChar) = some (.push (Nat.ofDigits 16 ds.reverse))) ∧
  (∀ c : Char, c.toNat < 128 →
    readAsmLine ("PUSH ".toList ++ [asmQuote, c, asmQuote]) = some (.push c.toNat))
end

