-- ==== Sys2Proof/Laws/Closed.lean ====
section
/-! SUPPORT. The equations of the closed forms over a byte sequence. -/

namespace Sys2Proof.Machine

/-- Fewer than four bytes hold no whole block. -/
theorem wholeBlocks_short : ∀ bs : List Byte, bs.length < 4 → wholeBlocks bs = []
  | [], _ => rfl
  | [_], _ => rfl
  | [_, _], _ => rfl
  | [_, _, _], _ => rfl
  | _ :: _ :: _ :: _ :: rest, hl => absurd hl (by simp only [List.length_cons]; omega)

/-- The blocks of a sequence of whole blocks stand before those of what follows. -/
theorem wholeBlocks_append (q : Nat) (xs ys : List Byte) (hl : xs.length = 4 * q) :
    wholeBlocks (xs ++ ys) = wholeBlocks xs ++ wholeBlocks ys := by
  induction q generalizing xs with
  | zero =>
    have hx : xs = [] := List.length_eq_zero_iff.1 (by omega)
    subst hx
    rfl
  | succ q ih =>
    rcases xs with _ | ⟨b0, _ | ⟨b1, _ | ⟨b2, _ | ⟨b3, rest⟩⟩⟩⟩ <;>
      simp only [List.length_cons, List.length_nil] at hl
    case cons.cons.cons.cons =>
      simp only [List.cons_append, wholeBlocks]
      rw [ih rest (by omega)]
    all_goals omega

/-- Fewer than four bytes commit nothing (R34). -/
theorem committed_short (h : Word) (bs : List Byte) (hl : bs.length < 4) : committed h bs = h := by
  rw [committed, wholeBlocks_short bs hl, List.foldl_nil]

/-- One whole block commits its block mix (R34). -/
theorem committed_block (h : Word) (b0 b1 b2 b3 : Byte) :
    committed h [b0, b1, b2, b3] = blockMix h #v[b0, b1, b2, b3] := by
  simp only [committed, wholeBlocks, List.foldl_cons, List.foldl_nil]

/-- The blocks of a sequence of whole blocks are absorbed before what follows. -/
theorem committed_append (q : Nat) (h : Word) (xs ys : List Byte) (hl : xs.length = 4 * q) :
    committed h (xs ++ ys) = committed (committed h xs) ys := by
  simp only [committed, wholeBlocks_append q xs ys hl, List.foldl_append]

end Sys2Proof.Machine
end

