-- ==== Sys2Proof/Laws/Decode.lean ====
section
/-! SUPPORT. The two fields of a command word, and what the decoder answers for each opcode. -/

namespace Sys2Proof

theorem opcodeField_commandWord (opcode : Byte) (operand : Word) :
    opcodeField (commandWord opcode operand) = opcode := by
  apply BitVec.eq_of_toNat_eq
  have := operand.isLt
  have := opcode.isLt
  simp only [opcodeField, commandWord, BitVec.extractLsb'_toNat, BitVec.toNat_append,
    Nat.shiftLeft_eq, Nat.shiftRight_eq_div_pow]
  rw [Nat.mul_comm, ← Nat.two_pow_add_eq_or_of_lt operand.isLt]
  omega

theorem operandField_commandWord (opcode : Byte) (operand : Word) :
    operandField (commandWord opcode operand) = operand := by
  apply BitVec.eq_of_toNat_eq
  have := operand.isLt
  simp only [operandField, commandWord, BitVec.extractLsb'_toNat, BitVec.toNat_append,
    Nat.shiftLeft_eq, Nat.shiftRight_eq_div_pow]
  rw [Nat.mul_comm, ← Nat.two_pow_add_eq_or_of_lt operand.isLt]
  omega

/-- The opcode field as a number: the word's bits 39 to 32. -/
theorem opcodeField_toNat (w : CommandWord) : (opcodeField w).toNat = w.toNat / 2 ^ 32 := by
  have := w.isLt
  simp only [opcodeField, BitVec.extractLsb'_toNat, Nat.shiftRight_eq_div_pow]
  omega

/-- The operand field as a number: the word's bits 31 to 0. -/
theorem operandField_toNat (w : CommandWord) : (operandField w).toNat = w.toNat % 2 ^ 32 := by
  simp [operandField, BitVec.extractLsb'_toNat]

/-- A word with none of the four opcodes is illegal. -/
theorem decode_illegal {w : CommandWord} (h1 : opcodeField w ≠ 0x01#8) (h2 : opcodeField w ≠ 0x02#8)
    (h3 : opcodeField w ≠ 0x03#8) (h4 : opcodeField w ≠ 0x04#8) : decode w = .illegal (opcodeField w) := by
  simp [decode, h1, h2, h3, h4]

end Sys2Proof
end

