-- ==== Sys2Proof/Laws/State.lean ====
section
/-! SUPPORT. One lemma per field per update of the state: what each shared operation on `State` leaves in each field. -/

namespace Sys2Proof.Machine

variable (s : State) (k : Hasher) (r : Response) (tr : Option Word) (v : Word) (e : CommandError) (n w : Nat)

@[simp] theorem State.complete_hasher : (s.complete k r tr).hasher = k := rfl
@[simp] theorem State.complete_hasReset : (s.complete k r tr).hasReset = s.hasReset := rfl
@[simp] theorem State.complete_inputs : (s.complete k r tr).inputs = s.inputs := rfl
@[simp] theorem State.complete_outputs : (s.complete k r tr).outputs = s.outputs ++ [⟨r, tr⟩] := rfl

@[simp] theorem State.respond_hasher : (s.respond k v).hasher = k := rfl
@[simp] theorem State.respond_hasReset : (s.respond k v).hasReset = s.hasReset := rfl
@[simp] theorem State.respond_inputs : (s.respond k v).inputs = s.inputs := rfl
@[simp] theorem State.respond_outputs : (s.respond k v).outputs = s.outputs ++ [⟨⟨.ok, v⟩, none⟩] := rfl

@[simp] theorem State.respondProbe_hasher : (s.respondProbe k v).hasher = k := rfl
@[simp] theorem State.respondProbe_hasReset : (s.respondProbe k v).hasReset = s.hasReset := rfl
@[simp] theorem State.respondProbe_inputs : (s.respondProbe k v).inputs = s.inputs := rfl
@[simp] theorem State.respondProbe_outputs :
    (s.respondProbe k v).outputs = s.outputs ++ [⟨⟨.ok, v⟩, some v⟩] := rfl

@[simp] theorem State.raise_hasher : (s.raise e).hasher = s.hasher := rfl
@[simp] theorem State.raise_hasReset : (s.raise e).hasReset = s.hasReset := rfl
@[simp] theorem State.raise_inputs : (s.raise e).inputs = s.inputs := rfl
@[simp] theorem State.raise_outputs : (s.raise e).outputs = s.outputs ++ [⟨⟨e.status, 0#32⟩, none⟩] := rfl

@[simp] theorem State.assertRst_hasher : s.assertRst.hasher = Hasher.powerOn := rfl
@[simp] theorem State.assertRst_hasReset : s.assertRst.hasReset = true := rfl
@[simp] theorem State.assertRst_inputs : s.assertRst.inputs = s.inputs := rfl
@[simp] theorem State.assertRst_outputs : s.assertRst.outputs = s.outputs := rfl

@[simp] theorem State.withFetchWord_hasher : (s.withFetchWord n w).hasher = s.hasher := rfl
@[simp] theorem State.withFetchWord_hasReset : (s.withFetchWord n w).hasReset = s.hasReset := rfl
@[simp] theorem State.withFetchWord_inputs :
    (s.withFetchWord n w).inputs = .command (tableWord n w) :: s.inputs := rfl
@[simp] theorem State.withFetchWord_outputs : (s.withFetchWord n w).outputs = s.outputs := rfl

@[simp] theorem Hasher.fresh_seed : (Hasher.fresh v).seed = v := rfl
@[simp] theorem Hasher.fresh_h1 : (Hasher.fresh v).h1 = v := rfl
@[simp] theorem Hasher.fresh_totalLen : (Hasher.fresh v).totalLen = 0#32 := rfl
@[simp] theorem Hasher.fresh_buf : (Hasher.fresh v).buf = #v[0#8, 0#8, 0#8, 0#8] := rfl

variable (b : Byte)

@[simp] theorem Hasher.pushed_seed : (k.pushed b).seed = k.seed := rfl
@[simp] theorem Hasher.pushed_totalLen : (k.pushed b).totalLen = k.totalLen + 1#32 := rfl
@[simp] theorem Hasher.pushed_buf : (k.pushed b).buf = k.stage b := rfl

/-- The accumulator after a PUSH: written only when the push leaves phase 0 (R97). -/
theorem Hasher.pushed_h1 :
    (k.pushed b).h1 = if phase (k.totalLen + 1#32) = 0 then blockMix k.h1 (k.stage b) else k.h1 := rfl

/-- `CONSTRUCT 0` and the power-on reset leave one state (R140). -/
theorem Hasher.fresh_zero : Hasher.fresh 0#32 = Hasher.powerOn := rfl

end Sys2Proof.Machine
end

