-- ==== Sys2Proof/Laws/Ops.lean ====
section
/-! SUPPORT. What each shared operation does: the phase, the staged buffer, the byte operand, and the two ends of a PUSH. -/

namespace Sys2Proof.Machine

@[simp] theorem phase_val (l : Word) : (phase l).val = l.toNat % 4 := rfl

/-- The phase cycle 0, 1, 2, 3, 0, also where the count wraps (R29). -/
theorem phase_succ (l : Word) : (phase (l + 1#32)).val = ((phase l).val + 1) % 4 := by
  simp only [phase_val, BitVec.toNat_add, BitVec.toNat_ofNat]
  omega

/-- The staged buffer, slot by slot (R42). -/
theorem Hasher.stage_getElem (b : Byte) (k : Hasher) (i : Fin 4) :
    (k.stage b)[i] = if phase k.totalLen = i then b else k.buf[i] := by
  simp only [Hasher.stage, Fin.getElem_fin, Vector.getElem_set, Fin.ext_iff]

theorem byteOperand_of_le {v : Word} (h : v.toNat ≤ 255) : byteOperand v = some (v.setWidth 8) := by
  have : v ≤ 0x000000FF#32 := by simpa [BitVec.le_def] using h
  simp only [byteOperand, this, if_true, Option.some.injEq]
  apply BitVec.eq_of_toNat_eq
  simp [BitVec.extractLsb'_toNat]

theorem byteOperand_of_gt {v : Word} (h : 255 < v.toNat) : byteOperand v = none := by
  have : ¬ v ≤ 0x000000FF#32 := by simpa [BitVec.le_def] using h
  simp [byteOperand, this]

/-- A PUSH of a byte completes. -/
theorem execPush_of_le {v : Word} (s : State) (h : v.toNat ≤ 255) :
    execPush v s = .next (s.respondProbe (s.hasher.pushed (v.setWidth 8)) (s.hasher.probe (v.setWidth 8))) := by
  simp [execPush, byteOperand_of_le h]

/-- A PUSH of no byte raises InvalidInput. -/
theorem execPush_of_gt {v : Word} (s : State) (h : 255 < v.toNat) :
    execPush v s = .next (s.raise (.invalidInput v)) := by
  simp [execPush, byteOperand_of_gt h]

end Sys2Proof.Machine
end

