-- ==== Sys2Proof/Laws/Step.lean ====
section
/-! SUPPORT. Everything a step can do, said once: the equations of `step` for each kind of input, and the one inversion
lemma that the claims about all steps cite. -/

namespace Sys2Proof.Machine

theorem step_idle {s : State} (h : s.inputs = []) : step s = .next s := by
  simp [step, Config.rotMode, stepUnder, h]

theorem step_input {s : State} {x : Input} {rest : List Input} (h : s.inputs = x :: rest) :
    step s = serve x { s with inputs := rest } := by
  simp [step, Config.rotMode, stepUnder, h]

theorem step_rst {s : State} {a : Option CommandWord} {rest : List Input} (h : s.inputs = .rst a :: rest) :
    step s = .next { s with inputs := rest }.assertRst := by
  simp [step_input h, serve]

theorem step_command {s : State} {w : CommandWord} {rest : List Input} (hr : s.hasReset = true)
    (h : s.inputs = .command w :: rest) : step s = accept w { s with inputs := rest } := by
  simp [step_input h, serve, hr]

/-- A presented word is the next command the machine runs. -/
theorem step_withFetchWord {s : State} {nbits w : Nat} {i : Instr} (hr : s.hasReset = true)
    (hd : decodeTableWord nbits w = some i) : step (s.withFetchWord nbits w) = exec i s := by
  have hi : (s.withFetchWord nbits w).inputs = .command (tableWord nbits w) :: s.inputs := rfl
  rw [step_command (by exact hr) hi, accept]
  revert hd
  rw [decodeTableWord]
  cases decode (tableWord nbits w) with
  | legal j =>
    intro hd
    cases hd
    rfl
  | illegal op =>
    intro hd
    cases hd

/-- Everything an accepted command word can do. -/
inductive Accepted (w : CommandWord) (s : State) : State → Prop where
  | construct (seedIn : Word) : decode w = .legal (.construct seedIn) →
      Accepted w s (s.respond (Hasher.fresh seedIn) 0#32)
  | reset (o : Word) : decode w = .legal (.reset o) → Accepted w s (s.respond (Hasher.fresh s.hasher.seed) 0#32)
  | length (o : Word) : decode w = .legal (.length o) → Accepted w s (s.respond s.hasher s.hasher.totalLen)
  | pushed (v : Word) : decode w = .legal (.push v) → v.toNat ≤ 255 →
      Accepted w s (s.respondProbe (s.hasher.pushed (v.setWidth 8)) (s.hasher.probe (v.setWidth 8)))
  | invalid (v : Word) : decode w = .legal (.push v) → 255 < v.toNat → Accepted w s (s.raise (.invalidInput v))
  | illegal (op : Byte) : decode w = .illegal op → Accepted w s (s.raise (.illegalCommand op))

/-- An accepted command word always answers a next state, and does one of six things. -/
theorem accept_cases (w : CommandWord) (s : State) : ∃ t, accept w s = .next t ∧ Accepted w s t := by
  rcases hd : decode w with i | op
  · cases i with
    | construct seedIn => exact ⟨_, by simp [accept, hd, exec, execConstruct], .construct seedIn hd⟩
    | reset o => exact ⟨_, by simp [accept, hd, exec, execReset], .reset o hd⟩
    | length o => exact ⟨_, by simp [accept, hd, exec, execLength], .length o hd⟩
    | push v =>
      rcases Nat.lt_or_ge 255 v.toNat with h | h
      · exact ⟨_, by simp [accept, hd, exec, execPush_of_gt _ h], .invalid v hd h⟩
      · exact ⟨_, by simp [accept, hd, exec, execPush_of_le _ h], .pushed v hd h⟩
  · exact ⟨_, by simp [accept, hd], .illegal op hd⟩

/-- Everything a step that answers a next state can do. -/
theorem step_cases {s t : State} (h : step s = .next t) :
    (s.inputs = [] ∧ t = s) ∨
    (∃ a rest, s.inputs = .rst a :: rest ∧ t = { s with inputs := rest }.assertRst) ∨
    (∃ w rest, s.inputs = .command w :: rest ∧ s.hasReset = true ∧ Accepted w { s with inputs := rest } t) := by
  rcases hi : s.inputs with _ | ⟨x, rest⟩
  · rw [step_idle hi] at h
    cases h
    exact .inl ⟨rfl, rfl⟩
  · cases x with
    | rst a =>
      rw [step_rst hi] at h
      cases h
      exact .inr (.inl ⟨a, rest, rfl, rfl⟩)
    | command w =>
      by_cases hr : s.hasReset = true
      case neg => simp [step_input hi, serve, hr] at h
      case pos =>
        obtain ⟨u, hu, ha⟩ := accept_cases w { s with inputs := rest }
        rw [step_command hr hi, hu] at h
        cases h
        exact .inr (.inr ⟨w, rest, rfl, hr, ha⟩)

/-- `run` is the host's run of this machine. -/
theorem core_run_eq (n : Nat) (s : State) : Sys2Proof.core.run n s = run n s := by
  induction n generalizing s with
  | zero => rfl
  | succ n ih =>
    have hrun : ∀ (M : Host.Core) (u : M.State), M.run (n + 1) u = (match M.step u with
      | .next t => M.run n t
      | .fault r => .fault r
      | .refused r => .refused r) := fun _ _ => rfl
    have hstep : Sys2Proof.core.step s = step s := rfl
    refine (hrun Sys2Proof.core s).trans ?_
    rw [hstep, run]
    cases step s with
    | next t => exact ih t
    | fault r => rfl
    | refused r => rfl

end Sys2Proof.Machine
end

