-- ==== Sys2Proof/Laws/Effect.lean ====
section
/-! SUPPORT. What actions do to the block alone: a step, and a run, of a block that has been reset is a function of the block's
state and of the actions, and appends to the outputs. Claims about runs cite this and never unfold `step`. -/

namespace Sys2Proof.Machine

/-- What one action does to the block's state, and the outputs it shows. -/
def effect (x : Input) (k : Hasher) : Hasher × List Output :=
  match x with
  | .rst _ => (Hasher.powerOn, [])
  | .command w =>
    match decode w with
    | .legal (.construct seedIn) => (Hasher.fresh seedIn, [⟨⟨.ok, 0#32⟩, none⟩])
    | .legal (.reset _) => (Hasher.fresh k.seed, [⟨⟨.ok, 0#32⟩, none⟩])
    | .legal (.length _) => (k, [⟨⟨.ok, k.totalLen⟩, none⟩])
    | .legal (.push v) =>
      if v.toNat ≤ 255 then (k.pushed (v.setWidth 8), [⟨⟨.ok, k.probe (v.setWidth 8)⟩, some (k.probe (v.setWidth 8))⟩])
      else (k, [⟨⟨.invalidInput, 0#32⟩, none⟩])
    | .illegal _ => (k, [⟨⟨.illegalCommand, 0#32⟩, none⟩])

/-- What a list of actions does, in order. -/
def effects : List Input → Hasher → Hasher × List Output
  | [], k => (k, [])
  | x :: xs, k => ((effects xs (effect x k).1).1, (effect x k).2 ++ (effects xs (effect x k).1).2)

/-- One action, of a block that has been reset. -/
theorem serve_eq_effect (x : Input) {s : State} (hr : s.hasReset = true) :
    serve x s = .next { s with hasher := (effect x s.hasher).1, outputs := s.outputs ++ (effect x s.hasher).2 } := by
  cases x with
  | rst a => simp [serve, State.assertRst, effect, hr]
  | command w =>
    obtain ⟨t, ht, ha⟩ := accept_cases w s
    simp only [serve, hr, if_true, ht]
    cases ha with
    | construct v hd => simp [effect, hd, hr, State.respond, State.complete]
    | reset o hd => simp [effect, hd, hr, State.respond, State.complete]
    | length o hd => simp [effect, hd, hr, State.respond, State.complete]
    | pushed v hd hv => simp [effect, hd, hr, hv, State.respondProbe, State.complete]
    | invalid v hd hv => simp [effect, hd, hr, Nat.not_le.2 hv, State.raise, State.complete, CommandError.status]
    | illegal op hd => simp [effect, hd, hr, State.raise, State.complete, CommandError.status]

/-- One step with an action of the caller. -/
theorem step_eq_effect {s : State} {x : Input} {rest : List Input} (hr : s.hasReset = true)
    (hi : s.inputs = x :: rest) :
    step s = .next { s with
      hasher := (effect x s.hasher).1
      inputs := rest
      outputs := s.outputs ++ (effect x s.hasher).2 } := by
  rw [step_input hi, serve_eq_effect x (by exact hr)]

/-- A run over the next actions of the caller. -/
theorem run_eq_effects (xs : List Input) {s : State} {rest : List Input} (hr : s.hasReset = true)
    (hi : s.inputs = xs ++ rest) :
    run xs.length s = .next { s with
      hasher := (effects xs s.hasher).1
      inputs := rest
      outputs := s.outputs ++ (effects xs s.hasher).2 } := by
  induction xs generalizing s with
  | nil =>
    simp only [List.nil_append] at hi
    subst hi
    simp [run, effects]
  | cons x xs ih =>
    have hs := step_eq_effect hr (x := x) (rest := xs ++ rest) hi
    simp only [List.length_cons, run, hs]
    refine (ih (by exact hr) rfl).trans ?_
    simp [effects, List.append_assoc]

/-- The effects of one list of actions and then another. -/
theorem effects_append (xs ys : List Input) (k : Hasher) :
    effects (xs ++ ys) k =
      ((effects ys (effects xs k).1).1, (effects xs k).2 ++ (effects ys (effects xs k).1).2) := by
  induction xs generalizing k with
  | nil => simp [effects]
  | cons x xs ih => simp [effects, ih, List.append_assoc]

/-- A run of `m` steps and then `n` more. -/
theorem run_add (m n : Nat) (s : State) :
    run (m + n) s = match run m s with
      | .next t => run n t
      | .fault r => .fault r
      | .refused r => .refused r := by
  induction m generalizing s with
  | zero => simp [run]
  | succ m ih =>
    rw [Nat.succ_add]
    simp only [run]
    cases step s <;> simp [ih]

end Sys2Proof.Machine
end

