-- ==== Sys2Proof/Laws/PerInstr.lean ====
section
/-! SUPPORT. One law per command: the word of a command is selected by its own row of the opcode table. -/

namespace Sys2Proof

/-- The mask of the opcode table keeps the opcode field of a command word. -/
theorem commandWord_and_mask (opcode : Byte) (operand : Word) :
    commandWord opcode operand &&& 0xFF00000000#40 = commandWord opcode 0#32 := by
  have hm : (0xFF00000000#40 : CommandWord) = 0xFF#8 ++ 0#32 := rfl
  have hx : opcode &&& 0xFF#8 = opcode := by
    have : (0xFF#8 : Byte) = BitVec.allOnes 8 := rfl
    rw [this, BitVec.and_allOnes]
  rw [commandWord, hm, BitVec.and_append, hx, BitVec.and_zero, commandWord]

/-- The row of the table that carries the command's mnemonic selects the command's word. -/
def Laws.TableRow.Statement (i : Instr) : Prop :=
  ∃ r ∈ opcodeTable, r.mnemonic = i.mnemonic ∧ r.selects (encode i) = true

theorem Laws.TableRow.construct (seedIn : Word) : Laws.TableRow.Statement (.construct seedIn) :=
  ⟨⟨"CONSTRUCT", 0x0100000000#40, 0xFF00000000#40⟩, by decide, rfl, by
    simp only [OpcodeRow.selects, encode, commandWord_and_mask]; decide⟩

theorem Laws.TableRow.reset (reserved : Word) : Laws.TableRow.Statement (.reset reserved) :=
  ⟨⟨"RESET", 0x0200000000#40, 0xFF00000000#40⟩, by decide, rfl, by
    simp only [OpcodeRow.selects, encode, commandWord_and_mask]; decide⟩

theorem Laws.TableRow.length (reserved : Word) : Laws.TableRow.Statement (.length reserved) :=
  ⟨⟨"LENGTH", 0x0300000000#40, 0xFF00000000#40⟩, by decide, rfl, by
    simp only [OpcodeRow.selects, encode, commandWord_and_mask]; decide⟩

theorem Laws.TableRow.push (value : Word) : Laws.TableRow.Statement (.push value) :=
  ⟨⟨"PUSH", 0x0400000000#40, 0xFF00000000#40⟩, by decide, rfl, by
    simp only [OpcodeRow.selects, encode, commandWord_and_mask]; decide⟩

end Sys2Proof
end

