-- ==== Sys2Proof/Tests/Slice0.lean ====
section
/-! SUPPORT. Small tests, each with its expected value from `spec/95_test_vectors.md` or from the rule it names, and one
witness for the hypotheses of each statement of `Certificates/Slice0/Obligations.lean`. -/

namespace Sys2Proof.Machine.Tests

/-- A block that has been reset, with a given state, nothing sent and nothing answered. -/
def at4 (seed h1 totalLen : Word) (b0 b1 b2 b3 : Byte) : State :=
  { State.reset with hasher := ⟨seed, h1, totalLen, #v[b0, b1, b2, b3]⟩ }

/-- The same block with the caller's next actions. -/
def sent (s : State) (xs : List Input) : State := { s with inputs := xs }

/-- Whether a step answers a next state with the given block state and the given last output. -/
def answers (r : Host.Outcome State Fault Refusal) (k : State) (o : Output) : Bool :=
  match r with
  | .next t => t.hasher == k.hasher && t.outputs.getLast? == some o
  | .fault _ => false
  | .refused _ => false

/-- An OK output of a command other than PUSH. -/
def okOut (v : Word) : Output := ⟨⟨.ok, v⟩, none⟩

/-- The output of a successful PUSH. -/
def probeOut (v : Word) : Output := ⟨⟨.ok, v⟩, some v⟩

/-- Whether a step is refused with the given reason. -/
def refuses (r : Host.Outcome State Fault Refusal) (why : Refusal) : Bool :=
  match r with
  | .next _ => false
  | .fault _ => false
  | .refused w => w == why

/-! Well-formedness: an ill-formed term for each check. -/

theorem test_wellFormed_refuses_reset_operand : (Instr.reset 0xDEADBEEF#32).wellFormed = false := by decide
theorem test_wellFormed_refuses_length_operand : (Instr.length 1#32).wellFormed = false := by decide
theorem test_output_form_refuses_error_value :
    Output.wellFormed ⟨⟨.invalidInput, 1#32⟩, none⟩ = false ∧
    Output.wellFormed ⟨⟨.illegalCommand, 1#32⟩, none⟩ = false := by decide
theorem test_output_form_refuses_error_trace :
    Output.wellFormed ⟨⟨.invalidInput, 0#32⟩, some 0#32⟩ = false ∧
    Output.wellFormed ⟨⟨.illegalCommand, 0#32⟩, some 0#32⟩ = false := by decide
theorem test_output_form_refuses_other_trace : Output.wellFormed ⟨⟨.ok, 1#32⟩, some 2#32⟩ = false := by decide

/-! Decoding: words written out from R60, R62 and `opcode_table.json`. -/

theorem test_decode_construct :
    decode 0b00000001_00000000_00000000_00000100_11010010#40 = .legal (.construct 0x000004D2#32) := by decide
theorem test_decode_reset :
    decode 0b00000010_11011110_10101101_10111110_11101111#40 = .legal (.reset 0xDEADBEEF#32) := by decide
theorem test_decode_length :
    decode 0b00000011_00000000_00000000_00000000_00000001#40 = .legal (.length 1#32) := by decide
theorem test_decode_push :
    decode 0b00000100_00000000_00000000_00000001_00000000#40 = .legal (.push 0x100#32) := by decide
/-- V-D1 to V-D4. -/
theorem test_decode_illegal :
    decode 0x0000000000#40 = .illegal 0x00#8 ∧ decode 0x0500000000#40 = .illegal 0x05#8 ∧
    decode 0xFF12345678#40 = .illegal 0xFF#8 ∧ decode 0x8400000001#40 = .illegal 0x84#8 := by decide
theorem test_encode :
    encode (.construct 0x4D2#32) = 0x01000004D2#40 ∧ encode (.reset 0#32) = 0x0200000000#40 ∧
    encode (.length 0#32) = 0x0300000000#40 ∧ encode (.push 0xFF#32) = 0x04000000FF#40 := by decide
theorem test_decodeTableWord :
    decodeTableWord 40 0x0400000048 = some (.push 0x48#32) ∧ decodeTableWord 40 0x0500000000 = none ∧
    decodeTableWord 32 0x0400000048 = none := by decide

/-! The pure functions: V-R4, V-R5, V-K2, V-K10, V-F6, V-B3, V-B6, V-T2. -/

theorem test_rotl32 :
    rotl32 0x00080000#32 13 = 0x00000001#32 ∧ rotl32 0x12345678#32 13 = 0x8acf0246#32 ∧
    rotl32 0x12345678#32 15 = 0x2b3c091a#32 := by decide
theorem test_kmix : kmix 0x00000001#32 = 0xc3539a5d#32 ∧ kmix 0x87654321#32 = 0x5082edee#32 := by decide
theorem test_fmix32 : fmix32 0x12345678#32 = 0xe37cd1bc#32 ∧ fmix32 0xffffffff#32 = 0x81f16f39#32 := by decide
theorem test_blockMix :
    blockMix 0xffffffff#32 #v[0xff#8, 0xff#8, 0xff#8, 0xff#8] = 0xb849f5ee#32 ∧
    blockMix 0x12345678#32 #v[0xaa#8, 0xbb#8, 0xcc#8, 0xdd#8] = 0x4b1af764#32 := by decide
theorem test_tailProbe :
    tailProbe 0#32 #v[0x00#8, 0x01#8, 0x02#8, 0x99#8] 3 3#32 = 0x51d4d0d7#32 ∧
    tailProbe 0x5a7c19df#32 #v[0x04#8, 0x77#8, 0x77#8, 0x77#8] 1 5#32 = 0xcca4dccb#32 := by decide

/-! One step of each command. -/

/-- V-C3. -/
theorem test_construct :
    answers (exec (.construct 0x4d2#32) (at4 0 0x5a7c19df#32 5 4 1 2 3)) (at4 0x4d2#32 0x4d2#32 0 0 0 0 0)
      (okOut 0) = true := by decide
/-- V-S3: the operand is ignored. -/
theorem test_reset :
    answers (exec (.reset 0xDEADBEEF#32) (at4 5 0x9c5f76c2#32 7 0x6f 0x2c 0x20 0x77)) (at4 5 5 0 0 0 0 0)
      (okOut 0) = true := by decide
/-- V-L3. -/
theorem test_length :
    answers (exec (.length 0xFFFFFFFF#32) (at4 0 0x12345678#32 0xffffffff#32 0xaa 0xbb 0xcc 0))
      (at4 0 0x12345678#32 0xffffffff#32 0xaa 0xbb 0xcc 0) (okOut 0xffffffff#32) = true := by decide
/-- V-P7: the count wraps and a block completes. -/
theorem test_push_wraps :
    answers (exec (.push 0xDD#32) (at4 0 0x12345678#32 0xffffffff#32 0xaa 0xbb 0xcc 0))
      (at4 0 0x4b1af764#32 0 0xaa 0xbb 0xcc 0xdd) (probeOut 0x4b1af764#32) = true := by decide
/-- V-P8: a tail of three with the largest count. -/
theorem test_push_tail :
    answers (exec (.push 0xCC#32) (at4 0 0x12345678#32 0xfffffffe#32 0xaa 0xbb 0 0))
      (at4 0 0x12345678#32 0xffffffff#32 0xaa 0xbb 0xcc 0) (probeOut 0x6e699442#32) = true := by decide

/-! One step of the machine for each kind of action. -/

/-- V-P11 at the port. -/
theorem test_step_invalidInput :
    answers (step (sent (at4 5 5 2 0x61 0x62 0 0) [.command 0x0400000100#40])) (at4 5 5 2 0x61 0x62 0 0)
      ⟨⟨.invalidInput, 0⟩, none⟩ = true := by decide
/-- Program P3, line 6. -/
theorem test_step_illegalCommand :
    answers (step (sent (at4 5 5 2 0x61 0x62 0 0) [.command 0x0700000000#40])) (at4 5 5 2 0x61 0x62 0 0)
      ⟨⟨.illegalCommand, 0⟩, none⟩ = true := by decide
/-- R142: no response, and the power-on state. -/
theorem test_step_rst :
    step (sent (at4 5 5 2 0x61 0x62 0 0) [.rst (some 0x0400000063#40)]) = .next State.reset := by rfl
/-- R143. -/
theorem test_step_beforeFirstReset :
    refuses (step { State.reset with hasReset := false, inputs := [.command 0x0300000000#40] })
      .beforeFirstReset = true := by decide
/-- R102. -/
theorem test_prototype_refused : refuses (stepUnder .prototype State.reset) .prototypeRotate = true := by decide
/-- Program P1, line 1: the first command after reset. -/
theorem test_withFetchWord :
    answers (step (State.reset.withFetchWord 40 0x0400000000)) (at4 0 0 1 0 0 0 0) (probeOut 0x514e28b7#32) = true := by
  decide

/-! The assembler (R73, R74). -/

theorem test_asm_text :
    assembleText "CONSTRUCT 1234 ; seed\nPUSH 'H'\nPUSH 0xFF\nRESET\n\nLENGTH".toList =
      some [0x01000004D2#40, 0x0400000048#40, 0x04000000FF#40, 0x0200000000#40, 0x0300000000#40] := by decide
theorem test_asm_pseudo :
    assembleText "CONSTRUCT\n.word40 0x2A00000000".toList = some [0x0100000000#40, 0x2A00000000#40] ∧
    (readAsmLine ("PUSHS ".toList ++ [asmDoubleQuote, 'H', ';', asmDoubleQuote])).bind assemble =
      some [0x0400000048#40, 0x040000003B#40] := by decide
/-- Log entry 17: a quoted `;` starts no comment. -/
theorem test_asm_quoted_semicolon :
    (readAsmLine ("PUSH ".toList ++ [asmQuote, ';', asmQuote, ';', 'x'])).bind assemble = some [0x040000003B#40] := by decide
theorem test_asm_refuses :
    assembleText "PUSH 4294967296".toList = none ∧ assembleText "PUSH 1 2".toList = none ∧
    assembleText "RESET 0".toList = none ∧ assembleText "PUSH".toList = none ∧
    assembleText "PUSH 12A".toList = none := by decide

/-! The published hash and the closed forms against the vectors of `95_test_vectors.md` §1b. -/

theorem test_publishedHash :
    publishedHash 0x4d2#32 [0x48, 0x65, 0x6c, 0x6c, 0x6f, 0x2c, 0x20, 0x77, 0x6f, 0x72, 0x6c, 0x64, 0x21] =
      0xfaf6cdb3#32 ∧
    publishedHash 0#32 [0x74, 0x65, 0x73, 0x74] = 0xba6bd213#32 ∧ publishedHash 0#32 [0x21, 0x43] = 0xa0f7b07a#32 ∧
    publishedHash 0#32 [0x21, 0x43, 0x65] = 0x7e4a8634#32 ∧ publishedHash 0xffffffff#32 [] = 0x81f16f39#32 := by decide
theorem test_closedProbe_boundary :
    closedProbe 0#32 [0x74, 0x65, 0x73, 0x74] = 0x7985975b#32 ∧ closedProbe 0#32 [0x21, 0x43] = 0xa0f7b07a#32 := by
  decide

/-! Witnesses: for each statement with hypotheses, states and operands that meet them, at a boundary for each clause. -/

/-- Program P3 after line 3, with the caller's next actions. -/
def p3 (xs : List Input) : State := sent (at4 5 5 2 0x61 0x62 0 0) xs

/-- The words of `LENGTH`, `PUSH 0xFF`, `PUSH 0x100`, an illegal word, `CONSTRUCT 0xFFFFFFFF` and `RESET`. -/
def wLength : CommandWord := 0x0300000000#40
def wPush : CommandWord := 0x04000000FF#40
def wBad : CommandWord := 0x0400000100#40
def wIllegal : CommandWord := 0x0500000000#40
def wConstruct : CommandWord := 0x01FFFFFFFF#40
def wReset : CommandWord := 0x0200000000#40

theorem witness_ConstructLoadsSeedAndClears : ∃ t, exec (.construct 0#32) (p3 []) = .next t := ⟨_, rfl⟩

theorem witness_ResetRestoresSeededState :
    (∃ t u, exec (.reset 1#32) (p3 []) = .next t ∧ exec (.reset 0#32) t = .next u) ∧
    (∃ t u, exec (.construct 7#32) (p3 []) = .next t ∧ exec (.reset 0#32) t = .next u) ∧
    (∃ u, exec (.reset 0#32) State.reset = .next u) ∧
    (∃ t u, exec (.reset 0#32) (p3 []) = .next t ∧ exec (.construct (p3 []).hasher.seed) (p3 []) = .next u) :=
  ⟨⟨_, _, rfl, rfl⟩, ⟨_, _, rfl, rfl⟩, ⟨_, rfl⟩, ⟨_, _, rfl, rfl⟩⟩

theorem witness_PushStagesByteAndAnswersProbe_boundary :
    (0xFF#32 : Word).toNat ≤ 255 ∧
    (#v[0xaa#8, 0xbb#8, 0xcc#8, 0xFF#8] : Vector Byte 4) =
      (at4 0 1 0xffffffff#32 0xaa 0xbb 0xcc 0).hasher.buf.set
        ((at4 0 1 0xffffffff#32 0xaa 0xbb 0xcc 0).hasher.totalLen.toNat % 4) ((0xFF#32 : Word).setWidth 8) ∧
    (0#32 : Word).toNat = ((at4 0 1 0xffffffff#32 0xaa 0xbb 0xcc 0).hasher.totalLen.toNat + 1) % 2 ^ 32 ∧
    (0#32 : Word).toNat % 4 = 0 := by decide

theorem witness_PushStagesByteAndAnswersProbe_tail :
    (0#32 : Word).toNat ≤ 255 ∧
    (#v[0xaa#8, 0xbb#8, 0#8, 0#8] : Vector Byte 4) =
      (at4 0 1 0xfffffffe#32 0xaa 0xbb 0xcc 0).hasher.buf.set
        ((at4 0 1 0xfffffffe#32 0xaa 0xbb 0xcc 0).hasher.totalLen.toNat % 4) ((0#32 : Word).setWidth 8) ∧
    (0xffffffff#32 : Word).toNat = ((at4 0 1 0xfffffffe#32 0xaa 0xbb 0xcc 0).hasher.totalLen.toNat + 1) % 2 ^ 32 ∧
    ¬ (0xffffffff#32 : Word).toNat % 4 = 0 := by decide

theorem witness_PushStagesByteAndAnswersProbe_error : 255 < (0x100#32 : Word).toNat := by decide

theorem witness_PushOfNoByteIsInvalidInput :
    0x100 ≤ (0x100#32 : Word).toNat ∧ 0x100 ≤ (0xFFFFFFFF#32 : Word).toNat ∧ (-1 : Word) = 0xFFFFFFFF#32 ∧
    ∃ t u, exec (.push 0x100#32) (p3 []) = .next t ∧ exec (.length 0#32) t = .next u :=
  ⟨by decide, by decide, by decide, _, _, rfl, rfl⟩

theorem witness_BoundaryProbeIsTheRawAccumulator :
    (0xFF#32 : Word).toNat ≤ 255 ∧ (at4 0 1 3 0 1 2 0).hasher.totalLen.toNat % 4 = 3 ∧
    (at4 0 1 0xffffffff#32 0 1 2 0).hasher.totalLen.toNat % 4 = 3 := by decide

theorem witness_TailPushKeepsAccumulator :
    (0xFF#32 : Word).toNat ≤ 255 ∧ (at4 0 1 0 0 0 0 0).hasher.totalLen.toNat % 4 ≠ 3 ∧
    (at4 0 1 0xfffffffe#32 0 1 2 0).hasher.totalLen.toNat % 4 ≠ 3 := by decide

theorem witness_PushAdvancesThePhase : (0xFF#32 : Word).toNat ≤ 255 ∧ (0#32 : Word).toNat ≤ 255 := by decide

theorem witness_PrimitivesAreModularArithmetic : 0 ≤ 31 ∧ 31 ≤ 31 ∧ 1 ≤ 1 ∧ 1 ≤ 31 := by decide

theorem witness_TailWordHoldsThePresentBytes :
    1 ≤ 1 ∧ 1 ≤ 3 ∧ 3 ≤ 3 ∧
    (∀ i : Fin 4, i.val < 1 → (#v[1#8, 2#8, 3#8, 4#8] : Vector Byte 4)[i] = (#v[1#8, 0#8, 0#8, 0#8] : Vector Byte 4)[i]) ∧
    (∀ i : Fin 4, i.val < 3 → (#v[1#8, 2#8, 3#8, 4#8] : Vector Byte 4)[i] = (#v[1#8, 2#8, 3#8, 0#8] : Vector Byte 4)[i]) := by
  decide

/-- The intermediates of V-F2. -/
theorem witness_FinalizationFormulaAndBijection :
    0x00000001#32 = 0x00000001#32 ^^^ (0x00000001#32 >>> 16) ∧ 0x85ebca6b#32 = 0x00000001#32 * 0x85ebca6b#32 ∧
    0x85efe535#32 = 0x85ebca6b#32 ^^^ (0x85ebca6b#32 >>> 13) ∧ 0x514e79f9#32 = 0x85efe535#32 * 0xc2b2ae35#32 ∧
    0x514e28b7#32 = 0x514e79f9#32 ^^^ (0x514e79f9#32 >>> 16) := by decide

theorem witness_TailProbeFormula :
    (∀ i : Fin 4, i.val < 3 → (#v[0#8, 0#8, 0#8, 9#8] : Vector Byte 4)[i] = 0#8) ∧
    (#v[0#8, 7#8, 8#8, 9#8] : Vector Byte 4)[0] = 0#8 := by decide

theorem witness_DecodeFollowsTheOpcodeMap :
    (0xFFFFFFFF#32 : Word).toNat = (0x01FFFFFFFF#40 : CommandWord).toNat % 2 ^ 32 ∧
    (0x01FFFFFFFF#40 : CommandWord).toNat / 2 ^ 32 = 1 ∧ (0x0200000000#40 : CommandWord).toNat / 2 ^ 32 = 2 ∧
    (0x03FFFFFFFF#40 : CommandWord).toNat / 2 ^ 32 = 3 ∧ (0x04FFFFFFFF#40 : CommandWord).toNat / 2 ^ 32 = 4 ∧
    (0x00FFFFFFFF#40 : CommandWord).toNat / 2 ^ 32 = 0 ∧ 5 ≤ (0x0500000000#40 : CommandWord).toNat / 2 ^ 32 ∧
    5 ≤ (0xFFFFFFFFFF#40 : CommandWord).toNat / 2 ^ 32 := by decide

theorem witness_EncodeInvertsDecode : decode 0x0400000100#40 = .legal (.push 0x100#32) := by decide

theorem witness_OpcodeTableSelectsTheDecodedCommand :
    decode 0x04FFFFFFFF#40 = .legal (.push 0xFFFFFFFF#32) ∧ decode 0x0500000000#40 = .illegal 0x05#8 := by decide

theorem witness_StepRunsTheDecodedCommand :
    (p3 [.command wPush]).hasReset = true ∧ (p3 [.command wPush]).inputs = .command wPush :: [] ∧
    decode wPush = .legal (.push 0xFF#32) := by decide

theorem witness_IllegalOpcodeRaisesIllegalCommand :
    (p3 [.command (0x05#8 ++ 0#32)]).hasReset = true ∧
    (p3 [.command (0x05#8 ++ 0#32)]).inputs = .command (0x05#8 ++ 0#32) :: [] ∧
    5 ≤ (0x05#8 : Byte).toNat ∧ 5 ≤ (0xFF#8 : Byte).toNat ∧ (0x00#8 : Byte).toNat = 0 := by decide

theorem witness_OneResponsePerAcceptedCommand :
    (p3 [.command wPush]).hasReset = true ∧ (p3 [.command wPush]).inputs = .command wPush :: [] ∧
    (decode wPush = .legal (.push 0xFF#32) ∧ (0xFF#32 : Word).toNat ≤ 255) ∧
    (decode wBad = .legal (.push 0x100#32) ∧ 255 < (0x100#32 : Word).toNat) ∧
    decode wLength = .legal (.length 0#32) ∧ decode wReset = .legal (.reset 0#32) ∧
    decode wConstruct = .legal (.construct 0xFFFFFFFF#32) ∧ decode wIllegal = .illegal 0x05#8 := by decide

theorem witness_ErrorsAreExactlyTheTwo :
    (p3 [.command wBad]).hasReset = true ∧ (p3 [.command wBad]).inputs = .command wBad :: [] := by decide

theorem witness_StreamContinuesAfterAnError :
    (p3 [.command wBad, .command wPush]).hasReset = true ∧
    (p3 [.command wBad, .command wPush]).inputs = .command wBad :: .command wPush :: [] ∧
    (∃ v, decode wBad = .legal (.push v) ∧ 255 < v.toNat) ∧ (∃ op, decode wIllegal = .illegal op) :=
  ⟨rfl, rfl, ⟨0x100#32, by decide⟩, ⟨0x05#8, by decide⟩⟩

theorem witness_RstAbandonsTheCommandInProgress :
    (p3 [.rst none]).inputs = .rst none :: [] ∧ (p3 [.rst (some wPush)]).inputs = .rst (some wPush) :: [] := by decide

theorem witness_CommandBeforeFirstResetIsRefused :
    { p3 [.command wPush] with hasReset := false }.hasReset = false ∧
    { p3 [.command wPush] with hasReset := false }.inputs = .command wPush :: [] := by decide

theorem witness_IdleBlockHoldsItsState : (p3 []).inputs = [] := by decide

theorem witness_TracePortCopiesSuccessfulProbes :
    (p3 [.command wPush]).hasReset = true ∧ (p3 [.command wPush]).inputs = .command wPush :: [] := by decide

theorem witness_SeedIsWrittenOnlyByConstruct :
    (∃ t, step (p3 [.rst none]) = .next t ∧ t.hasher.seed ≠ (p3 []).hasher.seed) ∧
    (∃ t, step (p3 [.command wConstruct]) = .next t ∧ t.hasher.seed ≠ (p3 []).hasher.seed) :=
  ⟨⟨_, rfl, by decide⟩, ⟨_, rfl, by decide⟩⟩

theorem witness_AccumulatorIsWrittenOnlyAtBlockBoundaries :
    (∃ t, step (p3 [.rst none]) = .next t ∧ t.hasher.h1 ≠ (p3 []).hasher.h1) ∧
    (∃ t, step (p3 [.command wConstruct]) = .next t ∧ t.hasher.h1 ≠ (p3 []).hasher.h1) ∧
    (∃ t, step (sent (at4 5 6 0 0 0 0 0) [.command wReset]) = .next t ∧ t.hasher.h1 ≠ 6#32) ∧
    (∃ t, step (sent (at4 5 5 3 0x61 0x62 0x63 0) [.command 0x0400000064#40]) = .next t ∧ t.hasher.h1 ≠ 5#32) :=
  ⟨⟨_, rfl, by decide⟩, ⟨_, rfl, by decide⟩, ⟨_, rfl, by decide⟩, ⟨_, rfl, by decide⟩⟩

theorem witness_CountIsWrittenOnlyByPushAndRestarts :
    (∃ t, step (p3 [.command wReset]) = .next t ∧ t.hasher.totalLen ≠ (p3 []).hasher.totalLen) ∧
    (∃ t, step (p3 [.command wPush]) = .next t ∧ t.hasher.totalLen ≠ (p3 []).hasher.totalLen) :=
  ⟨⟨_, rfl, by decide⟩, ⟨_, rfl, by decide⟩⟩

theorem witness_SlotIsWrittenOnlyByPushAndRestarts :
    (∃ t, step (p3 [.command wReset]) = .next t ∧ t.hasher.buf[(0 : Fin 4)] ≠ (p3 []).hasher.buf[(0 : Fin 4)]) ∧
    (∃ t, step (p3 [.command wPush]) = .next t ∧ t.hasher.buf[(2 : Fin 4)] ≠ (p3 []).hasher.buf[(2 : Fin 4)]) :=
  ⟨⟨_, rfl, by decide⟩, ⟨_, rfl, by decide⟩⟩

theorem witness_NoCommandStopsTheBlock : (p3 [.command wIllegal]).hasReset = true := by decide

theorem witness_StepKeepsOutputForms :
    ∃ t, State.Inv { p3 [.command wBad] with outputs := [probeOut 3#32] } ∧
      step { p3 [.command wBad] with outputs := [probeOut 3#32] } = .next t :=
  ⟨_, by decide, rfl⟩

/-- A block that differs from `p3` in its two stale slots. -/
def p3Stale (xs : List Input) : State := sent (at4 5 5 2 0x61 0x62 0x99 0x77) xs

theorem witness_StaleSlotsAreUnobservable :
    (p3 [.command wPush]).hasReset = true ∧ (p3Stale [.command wPush]).hasReset = true ∧
    (p3 [.command wPush]).inputs = (p3Stale [.command wPush]).inputs ∧
    (p3 [.command wPush]).outputs = (p3Stale [.command wPush]).outputs ∧
    (p3 [.command wPush]).hasher ≠ (p3Stale [.command wPush]).hasher ∧
    (p3 [.command wPush]).hasher.SameButStale (p3Stale [.command wPush]).hasher :=
  ⟨rfl, rfl, rfl, rfl, by decide, rfl, rfl, rfl, by decide⟩

theorem witness_AccumulatorReflectsWholeBlocksOnly :
    (p3 [.command wConstruct, .pushByte 0x61#8, .command wLength, .command wBad, .pushByte 0x62#8]).hasReset = true ∧
    decode wConstruct = .legal (.construct 0xFFFFFFFF#32) ∧ [0x61#8, 0x62#8].length < 2 ^ 32 ∧
    Interleaves ([0x61#8, 0x62#8].map Input.pushByte) [.command wLength, .command wBad]
      [.pushByte 0x61#8, .command wLength, .command wBad, .pushByte 0x62#8] ∧
    (∀ y ∈ [Input.command wLength, Input.command wBad], y.neutral = true) ∧
    (p3 [.command wConstruct, .pushByte 0x61#8, .command wLength, .command wBad, .pushByte 0x62#8]).inputs =
      .command wConstruct :: ([.pushByte 0x61#8, .command wLength, .command wBad, .pushByte 0x62#8] ++ []) :=
  ⟨rfl, by decide, by decide, .left _ (.right _ (.right _ (.left _ .done))), by decide, rfl⟩

theorem witness_ProbeSequenceInClosedForm :
    (p3 [.command wReset, .command wIllegal, .pushByte 0x61#8]).hasReset = true ∧
    (∃ o, decode wReset = .legal (.reset o)) ∧ 5#32 = (p3 []).hasher.seed ∧ [0x61#8].length < 2 ^ 32 ∧
    Interleaves ([0x61#8].map Input.pushByte) [.command wIllegal] [.command wIllegal, .pushByte 0x61#8] ∧
    (∀ y ∈ [Input.command wIllegal], y.neutral = true) ∧
    (p3 [.command wReset, .command wIllegal, .pushByte 0x61#8]).inputs =
      .command wReset :: ([.command wIllegal, .pushByte 0x61#8] ++ []) :=
  ⟨rfl, ⟨0#32, by decide⟩, rfl, by decide, .right _ (.left _ .done), by decide, rfl⟩

theorem witness_LengthCountsSuccessfulPushes :
    (p3 [.command wReset, .command wPush, .command wBad, .command wLength]).hasReset = true ∧
    (Input.command wReset).opensStream = true ∧ (Input.command wConstruct).opensStream = true ∧
    decode wLength = .legal (.length 0#32) ∧
    (∀ x ∈ [Input.command wPush, Input.command wBad], x.isCommand = true ∧ x.opensStream = false) ∧
    (p3 [.command wReset, .command wPush, .command wBad, .command wLength]).inputs =
      .command wReset :: ([.command wPush, .command wBad] ++ .command wLength :: []) := by decide

theorem witness_NeutralCommandsDisturbNothing :
    (p3 []).hasReset = true ∧
    Interleaves [.command wPush, .rst none] [.command wLength] [.command wPush, .command wLength, .rst none] ∧
    (∀ y ∈ [Input.command wLength], y.neutral = true) :=
  ⟨rfl, .left _ (.right _ (.left _ .done)), by decide⟩

theorem witness_InterleavedCallersAreSerialised :
    (p3 []).hasReset = true ∧
    Interleaves [.command wPush] [.command wConstruct] [.command wConstruct, .command wPush] :=
  ⟨rfl, .right _ (.left _ .done)⟩

theorem witness_ProbeAgainstThePublishedHash :
    (p3 [.command wReset, .command wIllegal, .pushByte 0x61#8]).hasReset = true ∧
    (∃ o, decode wReset = .legal (.reset o)) ∧ 5#32 = (p3 []).hasher.seed ∧
    [0x61#8] ≠ [] ∧ [0x61#8].length < 2 ^ 32 ∧ [0x61#8].length % 4 ≠ 0 ∧
    Interleaves ([0x61#8].map Input.pushByte) [.command wIllegal] [.command wIllegal, .pushByte 0x61#8] ∧
    (∀ y ∈ [Input.command wIllegal], y.neutral = true) ∧
    (p3 [.command wReset, .command wIllegal, .pushByte 0x61#8]).inputs =
      .command wReset :: ([.command wIllegal, .pushByte 0x61#8] ++ []) :=
  ⟨rfl, ⟨0#32, by decide⟩, rfl, by decide, by decide, by decide, .right _ (.left _ .done), by decide, rfl⟩

/-- Four bytes, the case of a block boundary. -/
def fourPushes : List Input := [.pushByte 0x74#8, .pushByte 0x65#8, .pushByte 0x73#8, .pushByte 0x74#8]

theorem witness_ProbeAgainstThePublishedHash_boundary :
    (p3 (.command wConstruct :: fourPushes)).hasReset = true ∧ decode wConstruct = .legal (.construct 0xFFFFFFFF#32) ∧
    [0x74#8, 0x65#8, 0x73#8, 0x74#8] ≠ [] ∧ [0x74#8, 0x65#8, 0x73#8, 0x74#8].length < 2 ^ 32 ∧
    [0x74#8, 0x65#8, 0x73#8, 0x74#8].length % 4 = 0 ∧
    Interleaves ([0x74#8, 0x65#8, 0x73#8, 0x74#8].map Input.pushByte) [] fourPushes ∧
    (∀ y ∈ ([] : List Input), y.neutral = true) ∧
    (p3 (.command wConstruct :: fourPushes)).inputs = .command wConstruct :: (fourPushes ++ []) :=
  ⟨rfl, by decide, by decide, by decide, by decide, .left _ (.left _ (.left _ (.left _ .done))), by decide, rfl⟩

theorem witness_AssemblerEncodesEachLine :
    4294967295 < 2 ^ 32 ∧ 2 ^ 32 ≤ 4294967296 ∧ 1099511627775 < 2 ^ 40 ∧ 2 ^ 40 ≤ 1099511627776 := by decide

theorem witness_PseudoInstructionsExpand :
    ∀ c ∈ [0, 127], c < 128 := by decide

theorem witness_AssembledWordsAreWellFormed :
    assemble .reset = some [0x0200000000#40] ∧ (∀ n, AsmLine.reset ≠ .word40 n) ∧
    0x0200000000#40 ∈ [(0x0200000000#40 : CommandWord)] :=
  ⟨by decide, fun _ => nofun, by decide⟩

theorem witness_LiteralsAreReadAsWritten :
    ([9, 0] : List Nat) ≠ [] ∧ (∀ d ∈ [9, 0], d < 10) ∧ (∀ d ∈ [15, 0], d < 16) ∧ (Char.ofNat 127).toNat < 128 := by decide

end Sys2Proof.Machine.Tests
end

section
/-! SUPPORT. The 32-bit primitives as arithmetic on numbers (`00_scope.md` R10), and the proof of the statement that says so. -/

namespace Sys2Proof.Machine

@[simp] theorem add32_toNat (a b : Word) : (add32 a b).toNat = (a.toNat + b.toNat) % 2 ^ 32 :=
  BitVec.toNat_add a b

@[simp] theorem mul32_toNat (a b : Word) : (mul32 a b).toNat = (a.toNat * b.toNat) % 2 ^ 32 :=
  BitVec.toNat_mul a b

@[simp] theorem shl32_toNat (x : Word) (n : Nat) : (shl32 x n).toNat = (x.toNat * 2 ^ n) % 2 ^ 32 := by
  rw [shl32, BitVec.toNat_shiftLeft, Nat.shiftLeft_eq]

@[simp] theorem shr32_toNat (x : Word) (n : Nat) : (shr32 x n).toNat = x.toNat / 2 ^ n := by
  rw [shr32, BitVec.toNat_ushiftRight, Nat.shiftRight_eq_div_pow]

/-- R10: below the width, the or of the two shifts is the library's rotation. -/
theorem rotl32_eq_rotateLeft (x : Word) {n : Nat} (h : n < 32) : rotl32 x n = x.rotateLeft n := by
  rw [BitVec.rotateLeft_def, Nat.mod_eq_of_lt h, rotl32, shl32, shr32]

/-- R10: the left shift may be reduced with the whole rotation, since the right shift never exceeds 32 bits. -/
theorem rotl32_toNat (x : Word) (n : Nat) :
    (rotl32 x n).toNat = ((x.toNat * 2 ^ n) ||| (x.toNat / 2 ^ (32 - n))) % 2 ^ 32 := by
  have right_fits : x.toNat / 2 ^ (32 - n) < 2 ^ 32 := (Nat.div_le_self _ _).trans_lt x.isLt
  rw [rotl32, BitVec.toNat_or, shl32_toNat, shr32_toNat, Nat.or_mod_two_pow, Nat.mod_eq_of_lt right_fits]

/-- Settles O10, primitive by primitive. -/
theorem primitivesAreModularArithmetic : Obligations.PrimitivesAreModularArithmetic :=
  ⟨add32_toNat, mul32_toNat, fun x n _ => shl32_toNat x n, fun x n _ => shr32_toNat x n,
    fun x n _ h => ⟨rfl, rotl32_eq_rotateLeft x (Nat.lt_succ_of_le h), rotl32_toNat x n⟩,
    fun a b => ⟨BitVec.toNat_xor a b, BitVec.toNat_or a b⟩⟩

end Sys2Proof.Machine
end

section
/-! SUPPORT. The phase cycle, the staged buffer and the accumulator of a PUSH, and the proofs of the statements about the phase,
the literals, the idle step and who writes the seed and `total_len` (`10_state.md` R22 to R29). -/

namespace Sys2Proof.Machine

/-- A PUSH leaves phase 0 exactly when it starts in phase 3. -/
theorem phase_succ_eq_zero_iff (l : Word) : phase (l + 1#32) = 0 ↔ phase l = 3 := by
  have hsucc := phase_succ l
  have hlt := (phase l).isLt
  rw [Fin.ext_iff, Fin.ext_iff, hsucc]
  change ((phase l).val + 1) % 4 = 0 ↔ (phase l).val = 3
  omega

/-- Off a block boundary the phase of the next count is one more. -/
theorem phase_succ_of_ne_zero {l : Word} (h : phase (l + 1#32) ≠ 0) :
    (phase (l + 1#32)).val = (phase l).val + 1 := by
  have hsucc := phase_succ l
  have hlt := (phase l).isLt
  have hne : (phase (l + 1#32)).val ≠ 0 := Fin.val_ne_zero_iff.2 h
  omega

/-- In phase 3 the staged byte completes the block. -/
theorem Hasher.stage_of_phase_three {k : Hasher} (h : phase k.totalLen = 3) (b : Byte) :
    k.stage b = #v[k.buf[0], k.buf[1], k.buf[2], b] := by
  ext i hi
  have hslot := k.stage_getElem b ⟨i, hi⟩
  rw [Fin.getElem_fin, h] at hslot
  rw [hslot]
  interval_cases i <;> rfl

/-- Off a block boundary a PUSH keeps the accumulator (R97). -/
theorem Hasher.pushed_h1_of_ne_zero {k : Hasher} (h : phase (k.totalLen + 1#32) ≠ 0) (b : Byte) :
    (k.pushed b).h1 = k.h1 := by
  rw [Hasher.pushed_h1, if_neg h]

/-- On a block boundary a PUSH commits the three staged bytes and the new one (R98). -/
theorem Hasher.pushed_h1_of_phase_three {k : Hasher} (h : phase k.totalLen = 3) (b : Byte) :
    (k.pushed b).h1 = blockMix k.h1 #v[k.buf[0], k.buf[1], k.buf[2], b] := by
  rw [Hasher.pushed_h1, if_pos ((phase_succ_eq_zero_iff _).2 h), Hasher.stage_of_phase_three h]

/-- The probe of a PUSH (R95, R98). -/
theorem Hasher.probe_eq_ite (k : Hasher) (b : Byte) :
    k.probe b = if phase (k.totalLen + 1#32) = 0 then blockMix k.h1 (k.stage b)
      else tailProbe k.h1 (k.stage b) (phase (k.totalLen + 1#32)).val (k.totalLen + 1#32) := rfl

/-- Settles O9, by the phase cycle and the equation for the accumulator after a PUSH. -/
theorem pushAdvancesThePhase : Obligations.PushAdvancesThePhase := by
  refine ⟨fun v s hv => ⟨_, execPush_of_le s hv, phase_succ _, fun hne => ?_⟩, rfl⟩
  exact Hasher.pushed_h1_of_ne_zero (Fin.val_ne_zero_iff.1 hne) _

/-- Settles O17, literal by literal. -/
theorem literalsAreHardwired : Obligations.LiteralsAreHardwired :=
  ⟨rfl, rfl, rfl, rfl, rfl, rfl, rfl, rfl, rfl, rfl, rfl⟩

/-- Settles O31: it is the idle case of the step. -/
theorem idleBlockHoldsItsState : Obligations.IdleBlockHoldsItsState :=
  fun _ => step_idle

/-- Settles O35: of everything a step can do, only `rst` and CONSTRUCT leave another seed. -/
theorem seedIsWrittenOnlyByConstruct : Obligations.SeedIsWrittenOnlyByConstruct := by
  intro s t hstep hne
  obtain ⟨-, rfl⟩ | ⟨a, rest, hi, rfl⟩ | ⟨w, rest, hi, -, hacc⟩ := step_cases hstep
  · exact absurd rfl hne
  · exact ⟨_, _, hi, .inl ⟨a, rfl, rfl⟩⟩
  · refine ⟨_, _, hi, .inr ?_⟩
    cases hacc with
    | construct seedIn hd => exact ⟨w, seedIn, rfl, hd, rfl⟩
    | reset | length | pushed | invalid | illegal => exact absurd rfl hne

/-- Settles O37: of everything a step can do, `rst`, CONSTRUCT and RESET clear the count, and a PUSH of a byte adds one. -/
theorem countIsWrittenOnlyByPushAndRestarts : Obligations.CountIsWrittenOnlyByPushAndRestarts := by
  intro s t hstep hne
  obtain ⟨-, rfl⟩ | ⟨a, rest, hi, rfl⟩ | ⟨w, rest, hi, -, hacc⟩ := step_cases hstep
  · exact absurd rfl hne
  · exact ⟨_, _, hi, .inl ⟨.inl ⟨a, rfl⟩, rfl⟩⟩
  · refine ⟨_, _, hi, ?_⟩
    cases hacc with
    | construct seedIn hd => exact .inl ⟨.inr ⟨w, rfl, by simp only [Input.opensStream, hd]⟩, rfl⟩
    | reset o hd => exact .inl ⟨.inr ⟨w, rfl, by simp only [Input.opensStream, hd]⟩, rfl⟩
    | pushed v hd hv => exact .inr ⟨w, v, rfl, hd, hv, BitVec.toNat_add _ _⟩
    | length | invalid | illegal => exact absurd rfl hne

end Sys2Proof.Machine
end

section
/-! SUPPORT. Stale buffer slots cannot be observed (`10_state.md` R30): blocks that agree but for slots at or above the phase
show the same outputs and go on agreeing, action by action. -/

namespace Sys2Proof.Machine

/-- R93: the tail word of `n` bytes reads no slot at or above `n`. -/
theorem tailWord_congr {buf other : Vector Byte 4} {n : Nat} (hn : 1 ≤ n)
    (h : ∀ i : Fin 4, i.val < n → buf[i] = other[i]) : tailWord buf n = tailWord other n := by
  have slot0 : buf[0] = other[0] := h 0 hn
  have slot1 : 2 ≤ n → buf[1] = other[1] := h 1
  have slot2 : 3 ≤ n → buf[2] = other[2] := h 2
  simp +contextual only [tailWord, slot0, slot1, slot2]

theorem Hasher.SameButStale.refl (k : Hasher) : k.SameButStale k :=
  ⟨rfl, rfl, rfl, fun _ _ => rfl⟩

section
variable {j k : Hasher} (h : j.SameButStale k) (b : Byte)
include h

/-- Staging a byte makes the slot at the phase agree too. -/
theorem Hasher.SameButStale.stage_getElem_eq {i : Fin 4} (hi : i ≤ phase j.totalLen) :
    (j.stage b)[i] = (k.stage b)[i] := by
  obtain ⟨-, -, hlen, hslots⟩ := h
  rw [Hasher.stage_getElem, Hasher.stage_getElem, ← hlen]
  split
  case isTrue => rfl
  case isFalse hne => exact hslots i (lt_of_le_of_ne hi (Ne.symm hne))

/-- In phase 3 no slot is stale once the byte is staged. -/
theorem Hasher.SameButStale.stage_eq (hp : phase j.totalLen = 3) : j.stage b = k.stage b := by
  refine Vector.ext fun i hi => h.stage_getElem_eq b (i := ⟨i, hi⟩) ?_
  rw [hp]
  exact Fin.le_last _

/-- The probe reads no stale slot: the block mix follows phase 3, and the tail word reads the slots below the new phase. -/
theorem Hasher.SameButStale.probe_eq : j.probe b = k.probe b := by
  have ⟨_, hh1, hlen, _⟩ := h
  rw [Hasher.probe_eq_ite, Hasher.probe_eq_ite, ← hh1, ← hlen]
  split_ifs with hz
  · rw [h.stage_eq b ((phase_succ_eq_zero_iff _).1 hz)]
  · have hsucc := phase_succ_of_ne_zero hz
    rw [tailProbe, tailProbe, tailWord_congr (by omega) fun i hi => h.stage_getElem_eq b (Fin.le_def.2 (by omega))]

/-- A PUSH of the same byte keeps the agreement. -/
theorem Hasher.SameButStale.pushed : (j.pushed b).SameButStale (k.pushed b) := by
  have ⟨hseed, hh1, hlen, _⟩ := h
  refine ⟨hseed, ?_, congrArg (· + 1#32) hlen, fun i hi => ?_⟩
  · rw [Hasher.pushed_h1, Hasher.pushed_h1, ← hh1, ← hlen]
    split_ifs with hz
    · rw [h.stage_eq b ((phase_succ_eq_zero_iff _).1 hz)]
    · rfl
  · have hsucc := phase_succ j.totalLen
    have hlt : i.val < (phase (j.totalLen + 1#32)).val := hi
    exact h.stage_getElem_eq b (Fin.le_def.2 (by omega))

/-- One action of the caller shows the same outputs and keeps the agreement. -/
theorem Hasher.SameButStale.effect (x : Input) :
    (effect x j).2 = (effect x k).2 ∧ (effect x j).1.SameButStale (effect x k).1 := by
  have ⟨hseed, _, hlen, _⟩ := h
  cases x with
  | rst a => exact ⟨rfl, .refl _⟩
  | command w =>
    rcases hd : decode w with i | op
    case illegal => simpa only [Machine.effect, hd, true_and] using h
    case legal =>
      cases i with
      | construct seedIn => simpa only [Machine.effect, hd, true_and] using .refl _
      | reset o => simpa only [Machine.effect, hd, hseed, true_and] using .refl _
      | length o => simpa only [Machine.effect, hd, hlen, true_and] using h
      | push v =>
        simp only [Machine.effect, hd, h.probe_eq]
        split
        case isTrue => exact ⟨rfl, h.pushed _⟩
        case isFalse => exact ⟨rfl, h⟩

end

/-- Two machines that have been reset, see the same actions, have shown the same outputs, and agree but for stale slots. -/
def State.SameButStale (s t : State) : Prop :=
  (s.hasReset = true ∧ t.hasReset = true) ∧ s.inputs = t.inputs ∧ s.outputs = t.outputs ∧
    s.hasher.SameButStale t.hasher

/-- A step of both machines keeps what they share. -/
theorem State.SameButStale.step {s t : State} (h : s.SameButStale t) :
    ∃ s' t', Machine.step s = .next s' ∧ Machine.step t = .next t' ∧ s'.SameButStale t' := by
  have ⟨⟨hrs, hrt⟩, hin, hout, hk⟩ := h
  rcases hi : s.inputs with _ | ⟨x, rest⟩
  case nil => exact ⟨s, t, step_idle hi, step_idle (hin ▸ hi), h⟩
  case cons =>
    obtain ⟨hshown, hk'⟩ := hk.effect x
    exact ⟨_, _, step_eq_effect hrs hi, step_eq_effect hrt (hin ▸ hi), ⟨hrs, hrt⟩, rfl,
      congrArg₂ (· ++ ·) hout hshown, hk'⟩

/-- A run of both machines keeps what they share. -/
theorem State.SameButStale.run (n : Nat) {s t : State} (h : s.SameButStale t) :
    ∃ s' t', Machine.run n s = .next s' ∧ Machine.run n t = .next t' ∧ s'.SameButStale t' := by
  induction n generalizing s t with
  | zero => exact ⟨s, t, rfl, rfl, h⟩
  | succ n ih =>
    obtain ⟨s', t', hs, ht, h'⟩ := h.step
    simpa only [Machine.run, hs, ht] using ih h'

/-- Settles O42: agreement but for stale slots is kept by a run of any length. -/
theorem staleSlotsAreUnobservable : Obligations.StaleSlotsAreUnobservable := by
  intro n s t hrs hrt hin hout hk
  obtain ⟨s', t', hs, ht, -, hin', hout', hk'⟩ :=
    State.SameButStale.run n ⟨⟨hrs, hrt⟩, hin, hout, hk⟩
  exact ⟨s', t', hs, ht, hin', hout', hk'⟩

end Sys2Proof.Machine
end

section
/-! SUPPORT. What a byte stream leaves in the block (`10_state.md` R34): the accumulator of the whole blocks, the count, and the
bytes after the last whole block. -/

namespace Sys2Proof.Machine

/-! The accumulator of a byte sequence, byte by byte -/

theorem tailBytes_length (bs : List Byte) : (tailBytes bs).length = bs.length % 4 := by
  rw [tailBytes, List.length_drop]
  omega

/-- The accumulator has absorbed all but the tail, so what follows is absorbed together with the tail. -/
theorem committed_append_tail (h : Word) (bs ys : List Byte) :
    committed h (bs ++ ys) = committed (committed h bs) (tailBytes bs ++ ys) := by
  have whole_length : (bs.take (4 * (bs.length / 4))).length = 4 * (bs.length / 4) := by rw [List.length_take]; omega
  have whole_append_tail : bs.take (4 * (bs.length / 4)) ++ tailBytes bs = bs := List.take_append_drop _ bs
  have absorb : ∀ zs, committed h (bs.take (4 * (bs.length / 4)) ++ zs) =
      committed (committed h (bs.take (4 * (bs.length / 4)))) zs := fun zs => committed_append _ h _ zs whole_length
  have absorbed_whole : committed h bs = committed h (bs.take (4 * (bs.length / 4))) := by
    conv_lhs => rw [← whole_append_tail]
    rw [absorb, committed_short _ _ (by rw [tailBytes_length]; omega)]
  rw [absorbed_whole, ← absorb, ← List.append_assoc, whole_append_tail]

/-- A byte that completes no block leaves the accumulator. -/
theorem committed_concat_of_ne_zero (h : Word) (bs : List Byte) (b : Byte) (hne : (bs.length + 1) % 4 ≠ 0) :
    committed h (bs ++ [b]) = committed h bs := by
  rw [committed_append_tail, committed_short]
  rw [List.length_append, tailBytes_length, List.length_singleton]
  omega

/-- The byte that completes a block absorbs it, where `b0`, `b1`, `b2` are the bytes after the last whole block. -/
theorem committed_concat_block (h : Word) {bs : List Byte} {b0 b1 b2 : Byte} (htail : tailBytes bs = [b0, b1, b2])
    (b : Byte) : committed h (bs ++ [b]) = blockMix (committed h bs) #v[b0, b1, b2, b] := by
  rw [committed_append_tail, htail]
  exact committed_block _ b0 b1 b2 b

/-! The block after a byte stream -/

/-- R34: what the block holds after a fresh `seed` and pushes of the bytes `bs`; the count is modulo 2^32. -/
structure Hasher.Absorbed (seed : Word) (bs : List Byte) (k : Hasher) : Prop where
  seed_eq : k.seed = seed
  h1_eq : k.h1 = committed seed bs
  totalLen_eq : k.totalLen = BitVec.ofNat 32 bs.length
  slots_eq : ∀ i : Fin 4, i.val < bs.length % 4 → bs[4 * (bs.length / 4) + i.val]? = some k.buf[i]

theorem Hasher.Absorbed.fresh (seed : Word) : (Hasher.fresh seed).Absorbed seed [] where
  seed_eq := rfl
  h1_eq := rfl
  totalLen_eq := rfl
  slots_eq _ hi := absurd hi (Nat.not_lt_zero _)

section
variable {seed : Word} {bs : List Byte} {k : Hasher} (h : k.Absorbed seed bs)
include h

/-- The phase is the number of bytes after the last whole block, also past 2^32 bytes, of which 4 is a divisor. -/
theorem Hasher.Absorbed.phase_val : (phase k.totalLen).val = bs.length % 4 := by
  rw [h.totalLen_eq, Machine.phase_val, BitVec.toNat_ofNat]
  omega

/-- In phase 3 the first three slots are the tail. -/
theorem Hasher.Absorbed.tailBytes_eq (hp : bs.length % 4 = 3) :
    tailBytes bs = [k.buf[0], k.buf[1], k.buf[2]] := by
  have hlen : (tailBytes bs).length = 3 := (tailBytes_length bs).trans hp
  have hget : ∀ i : Fin 4, i.val < 3 → (tailBytes bs)[i.val]? = some k.buf[i] := fun i hi => by
    rw [tailBytes, List.getElem?_drop, h.slots_eq i (hp ▸ hi)]
  obtain ⟨x0, x1, x2, hx⟩ := List.length_eq_three.1 hlen
  have slot0 := hget 0 (by decide)
  have slot1 := hget 1 (by decide)
  have slot2 := hget 2 (by decide)
  rw [hx] at slot0 slot1 slot2 ⊢
  rw [Option.some.inj slot0, Option.some.inj slot1, Option.some.inj slot2]
  rfl

/-- A PUSH absorbs one byte more. -/
theorem Hasher.Absorbed.pushed (b : Byte) : (k.pushed b).Absorbed seed (bs ++ [b]) where
  seed_eq := h.seed_eq
  h1_eq := by
    have hphase := h.phase_val
    by_cases hp : phase k.totalLen = 3
    case pos =>
      rw [hp] at hphase
      rw [Hasher.pushed_h1_of_phase_three hp, h.h1_eq, committed_concat_block seed (h.tailBytes_eq hphase.symm)]
    case neg =>
      have hne : bs.length % 4 ≠ 3 := fun h3 => hp (Fin.ext (hphase.trans h3))
      rw [Hasher.pushed_h1_of_ne_zero (mt (phase_succ_eq_zero_iff _).1 hp), h.h1_eq,
        committed_concat_of_ne_zero seed bs b (by omega)]
  totalLen_eq := by
    rw [Hasher.pushed_totalLen, h.totalLen_eq, List.length_append, List.length_singleton, BitVec.ofNat_add]
  slots_eq i hi := by
    rw [List.length_append, List.length_singleton] at hi ⊢
    have hq : (bs.length + 1) / 4 = bs.length / 4 := by omega
    rw [Hasher.pushed_buf, Hasher.stage_getElem, hq]
    split
    case isTrue hphase =>
      have hend : 4 * (bs.length / 4) + i.val = bs.length := by rw [← hphase, h.phase_val]; omega
      rw [hend, List.getElem?_concat_length]
    case isFalse hphase =>
      have hne : i.val ≠ bs.length % 4 := fun heq => hphase (Fin.ext (h.phase_val.trans heq.symm))
      rw [List.getElem?_append_left (by omega), h.slots_eq i (by omega)]

end

/-! Streams of pushes with neutral commands in between -/

/-- The word of a PUSH decodes to it. -/
theorem decode_encode_push (v : Word) : decode (encode (.push v)) = .legal (.push v) := by
  simp [encode, decode, opcodeField_commandWord, operandField_commandWord]

theorem effect_pushByte_fst (b : Byte) (k : Hasher) : (effect (.pushByte b) k).1 = k.pushed b := by
  have hle : (b.setWidth 32).toNat ≤ 255 := by
    have := b.isLt
    rw [BitVec.toNat_setWidth]
    omega
  have hback : (b.setWidth 32).setWidth 8 = b := BitVec.setWidth_setWidth_of_le b (by decide)
  simp only [Input.pushByte, effect, decode_encode_push, if_pos hle, hback]

/-- R100: a neutral command writes no state of the block. -/
theorem effect_neutral_fst {y : Input} (hy : y.neutral = true) (k : Hasher) : (effect y k).1 = k := by
  cases y with
  | rst a => cases hy
  | command w =>
    rcases hd : decode w with i | op
    case illegal => simp only [effect, hd]
    case legal =>
      simp only [Input.neutral, hd] at hy
      cases i with
      | construct seedIn => cases hy
      | reset o => cases hy
      | length o => simp only [effect, hd]
      | push v =>
        have hgt : 255 < v.toNat := of_decide_eq_true hy
        simp only [effect, hd, if_neg (Nat.not_le.2 hgt)]

/-- R100: neutral commands anywhere in a stream leave the block as the stream alone does. -/
theorem Interleaves.effects_fst {xs ys zs : List Input} (h : Interleaves xs ys zs)
    (hy : ∀ y ∈ ys, y.neutral = true) (k : Hasher) : (effects zs k).1 = (effects xs k).1 := by
  induction h generalizing k with
  | done => rfl
  | left x _ ih => exact ih hy _
  | right y _ ih =>
    obtain ⟨hhead, htail⟩ := List.forall_mem_cons.1 hy
    rw [effects, effect_neutral_fst hhead, ih htail]

/-- The pushes of `new` after those of `bs` leave what the pushes of both leave. -/
theorem Hasher.Absorbed.effects_pushes {seed : Word} (new : List Byte) {bs : List Byte} {k : Hasher}
    (h : k.Absorbed seed bs) : (effects (new.map Input.pushByte) k).1.Absorbed seed (bs ++ new) := by
  induction new generalizing bs k with
  | nil => rwa [List.append_nil]
  | cons b new ih =>
    rw [List.map_cons, effects, effect_pushByte_fst, List.append_cons]
    exact ih (h.pushed b)

/-- A CONSTRUCT or a RESET leaves a fresh hasher, of its operand or of the current seed. -/
theorem effect_restart_fst {w : CommandWord} {seed : Word} {k : Hasher}
    (h : decode w = .legal (.construct seed) ∨ (∃ o, decode w = .legal (.reset o)) ∧ seed = k.seed) :
    (effect (.command w) k).1 = Hasher.fresh seed := by
  obtain hd | ⟨⟨o, hd⟩, rfl⟩ := h <;> simp only [effect, hd]

/-- Settles O43: the restart leaves a fresh hasher, the neutral commands leave it alone, and each push absorbs one byte. -/
theorem accumulatorReflectsWholeBlocksOnly : Obligations.AccumulatorReflectsWholeBlocksOnly := by
  intro s w seed bs ys zs rest hr hw hlen hil hneutral hi
  have hrun := run_eq_effects (.command w :: zs) (rest := rest) hr hi
  have habs : (effects (.command w :: zs) s.hasher).1.Absorbed seed bs := by
    rw [effects, effect_restart_fst hw, hil.effects_fst hneutral]
    exact (Hasher.Absorbed.fresh seed).effects_pushes bs
  refine ⟨_, hrun, rfl, habs.seed_eq, habs.h1_eq, ?_, habs.slots_eq⟩
  rw [habs.totalLen_eq, BitVec.toNat_ofNat, Nat.mod_eq_of_lt hlen]

end Sys2Proof.Machine
end

section
/-! SUPPORT. Who writes a buffer slot (`20_memory.md` R42), and how many outputs the interleaved streams of two callers show
(`20_memory.md` R49, `60_exceptions.md` R129). -/

namespace Sys2Proof.Machine

/-! Slots -/

/-- Every slot of a fresh hasher is zero. -/
theorem Hasher.fresh_slot (seed : Word) (j : Fin 4) : (Hasher.fresh seed).buf[j] = 0#8 := by
  rw [Hasher.fresh_buf]
  revert j
  decide

/-- R42: staging a byte changes no slot but the one at the phase, which then holds the byte. -/
theorem Hasher.stage_getElem_of_ne {k : Hasher} {b : Byte} {i : Fin 4} (h : (k.stage b)[i] ≠ k.buf[i]) :
    phase k.totalLen = i ∧ (k.stage b)[i] = b := by
  rw [Hasher.stage_getElem] at h ⊢
  have at_phase : phase k.totalLen = i := by_contra fun hne => h (if_neg hne)
  exact ⟨at_phase, if_pos at_phase⟩

/-- Settles O38: of everything a step can do, `rst`, CONSTRUCT and RESET clear every slot, and a PUSH of a byte stages it. -/
theorem slotIsWrittenOnlyByPushAndRestarts : Obligations.SlotIsWrittenOnlyByPushAndRestarts := by
  intro s t i hstep hne
  obtain ⟨-, rfl⟩ | ⟨a, rest, hi, rfl⟩ | ⟨w, rest, hi, -, hacc⟩ := step_cases hstep
  · exact absurd rfl hne
  · exact ⟨_, _, hi, .inl ⟨.inl ⟨a, rfl⟩, Hasher.fresh_slot 0#32⟩⟩
  · refine ⟨_, _, hi, ?_⟩
    cases hacc with
    | construct seedIn hd =>
      exact .inl ⟨.inr ⟨w, rfl, by simp only [Input.opensStream, hd]⟩, Hasher.fresh_slot seedIn⟩
    | reset o hd =>
      exact .inl ⟨.inr ⟨w, rfl, by simp only [Input.opensStream, hd]⟩, Hasher.fresh_slot s.hasher.seed⟩
    | pushed v hd hv =>
      obtain ⟨at_phase, staged⟩ := Hasher.stage_getElem_of_ne hne
      exact .inr ⟨w, v, rfl, hd, hv, (congrArg Fin.val at_phase).symm, staged⟩
    | length | invalid | illegal => exact absurd rfl hne

/-! Interleaved callers -/

/-- R66: a command shows one output, `rst` none. -/
theorem effect_snd_length (x : Input) (k : Hasher) :
    (effect x k).2.length = if x.isCommand then 1 else 0 := by
  cases x with
  | rst a => rfl
  | command w =>
    rcases hd : decode w with i | op
    case illegal => simp only [effect, hd, Input.isCommand, List.length_singleton, if_true]
    case legal =>
      cases i with
      | construct | reset | length => simp only [effect, hd, Input.isCommand, List.length_singleton, if_true]
      | push v =>
        simp only [effect, hd, Input.isCommand, if_true]
        split <;> rfl

/-- R49: a list of actions shows as many outputs as it holds commands. -/
theorem effects_snd_length (xs : List Input) (k : Hasher) :
    (effects xs k).2.length = xs.countP Input.isCommand := by
  induction xs generalizing k with
  | nil => rfl
  | cons x xs ih => rw [effects, List.length_append, effect_snd_length, ih, List.countP_cons, Nat.add_comm]

/-- R129: an interleaving takes every action of either caller exactly once. -/
theorem Interleaves.perm {xs ys zs : List Input} (h : Interleaves xs ys zs) : zs.Perm (xs ++ ys) := by
  induction h with
  | done => exact .nil
  | left x _ ih => exact ih.cons x
  | right y _ ih => exact (ih.cons y).trans List.perm_middle.symm

/-- Settles O47: a run over the interleaving shows one output per command of it, and its commands are those of the two callers. -/
theorem interleavedCallersAreSerialised : Obligations.InterleavedCallersAreSerialised := by
  intro s xs ys zs hr hil
  have hrun := run_eq_effects zs (s := { s with inputs := zs }) (rest := []) hr (List.append_nil zs).symm
  refine ⟨_, _, hrun, rfl, rfl, ?_⟩
  calc (effects zs s.hasher).2.length
    _ = zs.countP Input.isCommand := effects_snd_length zs _
    _ = (xs ++ ys).countP Input.isCommand := hil.perm.countP_eq _
    _ = (xs.filter Input.isCommand).length + (ys.filter Input.isCommand).length := by
      rw [List.countP_append, List.countP_eq_length_filter, List.countP_eq_length_filter]

end Sys2Proof.Machine
end

section
/-! SUPPORT. The decoder and the status codes as numbers, and what an accepted command answers (`30_encoding.md` R63 to R69). -/

namespace Sys2Proof

/-! One equation of the decoder for each of the four opcodes; `decode_illegal` is the fifth -/

theorem decode_construct {w : CommandWord} (h : opcodeField w = 0x01#8) :
    decode w = .legal (.construct (operandField w)) :=
  if_pos h

theorem decode_reset {w : CommandWord} (h : opcodeField w = 0x02#8) :
    decode w = .legal (.reset (operandField w)) := by
  rw [decode, h]
  rfl

theorem decode_length {w : CommandWord} (h : opcodeField w = 0x03#8) :
    decode w = .legal (.length (operandField w)) := by
  rw [decode, h]
  rfl

theorem decode_push {w : CommandWord} (h : opcodeField w = 0x04#8) :
    decode w = .legal (.push (operandField w)) := by
  rw [decode, h]
  rfl

/-- The opcode field is a given byte exactly when bits 39 to 32 are its number. -/
theorem opcodeField_eq_iff (w : CommandWord) (opcode : Byte) :
    opcodeField w = opcode ↔ w.toNat / 2 ^ 32 = opcode.toNat := by
  rw [← BitVec.toNat_inj, opcodeField_toNat]

/-- The word of a command decodes to that command (R62, R63). -/
theorem decode_encode (i : Instr) : decode (encode i) = .legal i := by
  cases i with
  | construct v => rw [encode, decode_construct (opcodeField_commandWord _ v), operandField_commandWord]
  | reset v => rw [encode, decode_reset (opcodeField_commandWord _ v), operandField_commandWord]
  | length v => rw [encode, decode_length (opcodeField_commandWord _ v), operandField_commandWord]
  | push v => rw [encode, decode_push (opcodeField_commandWord _ v), operandField_commandWord]

/-- Settles O18, opcode by opcode. -/
theorem decodeFollowsTheOpcodeMap : Obligations.DecodeFollowsTheOpcodeMap := by
  intro w operand hoperand
  obtain rfl : operand = operandField w := BitVec.eq_of_toNat_eq (hoperand.trans (operandField_toNat w).symm)
  refine ⟨fun h => decode_construct ((opcodeField_eq_iff w _).2 h), fun h => decode_reset ((opcodeField_eq_iff w _).2 h),
    fun h => decode_length ((opcodeField_eq_iff w _).2 h), fun h => decode_push ((opcodeField_eq_iff w _).2 h),
    fun h => ⟨opcodeField w, opcodeField_toNat w, ?_⟩⟩
  have other : ∀ opcode : Byte, 1 ≤ opcode.toNat → opcode.toNat ≤ 4 → opcodeField w ≠ opcode := by
    intro opcode hge hle heq
    have := (opcodeField_eq_iff w opcode).1 heq
    omega
  exact decode_illegal (other _ (by decide) (by decide)) (other _ (by decide) (by decide))
    (other _ (by decide) (by decide)) (other _ (by decide) (by decide))

end Sys2Proof

namespace Sys2Proof.Machine

/-- R67: a status is read back from its code. -/
theorem Status.ofCode_code (st : Status) : Status.ofCode st.code = some st := by
  cases st <;> rfl

/-- Settles O23: 3 names no status, so no status, being read back from its code, has the code 3. -/
theorem statusCodes : Obligations.StatusCodes := by
  have three_names_none : Status.ofCode 3#2 = none := rfl
  refine ⟨rfl, rfl, rfl, fun st => ⟨fun h => ?_, st.ofCode_code⟩, three_names_none⟩
  have hback := st.ofCode_code
  rw [h, three_names_none] at hback
  cases hback

/-- Settles O4: neither meaning reads its operand. -/
theorem reservedOperandIsIgnored : Obligations.ReservedOperandIsIgnored :=
  fun _ _ => ⟨rfl, rfl⟩

/-- Settles O24: the port accepts the word, and the decoder selects the command's meaning. -/
theorem stepRunsTheDecodedCommand : Obligations.StepRunsTheDecodedCommand := by
  intro s w rest i hr hi hd
  rw [step_command hr hi, accept, hd]

/-! The one response of a command -/

/-- A command's one output has the response that its effect shows. -/
theorem response_of_effect {w : CommandWord} {k : Hasher} {o : Output} {r : Response}
    (ho : (effect (.command w) k).2 = [o]) (h : (effect (.command w) k).2.map Output.response = [r]) :
    o.response = r := by
  rw [ho] at h
  exact List.singleton_inj.1 h

/-- Settles O26: a command's effect shows one output, and the decoded command says which. -/
theorem oneResponsePerAcceptedCommand : Obligations.OneResponsePerAcceptedCommand := by
  intro s w rest hr hi
  obtain ⟨o, ho⟩ := List.length_eq_one_iff.1 (effect_snd_length (.command w) s.hasher)
  refine ⟨_, o, step_eq_effect hr hi, rfl, congrArg (s.outputs ++ ·) ho,
    fun v hd hv => ?push, fun v hd hv => ?invalid, fun x hd => ?length, fun x hd => ?reset,
    fun x hd => ?construct, fun x hd => ?illegal⟩
  case push => exact response_of_effect ho (by simp only [effect, hd, if_pos hv, List.map])
  case invalid => exact response_of_effect ho (by simp only [effect, hd, if_neg (Nat.not_le.2 hv), List.map])
  all_goals exact response_of_effect ho (by simp only [effect, hd, List.map])

/-! The invariant of the outputs -/

/-- R131: a trace that copies an OK response's value is of a form the spec gives. -/
theorem Output.wellFormed_probe (v : Word) : Output.wellFormed ⟨⟨.ok, v⟩, some v⟩ = true :=
  beq_self_eq_true v

/-- A command that ends with an output of a form the spec gives keeps the invariant. -/
theorem State.Inv.complete {s : State} (h : s.Inv) (k : Hasher) {r : Response} {tr : Option Word}
    (ho : Output.wellFormed ⟨r, tr⟩ = true) : (s.complete k r tr).Inv := by
  obtain ⟨hreset, hforms⟩ := h
  refine ⟨hreset, fun o hmem => ?_⟩
  rcases List.mem_append.1 hmem with hold | hnew
  · exact hforms o hold
  · exact List.mem_singleton.1 hnew ▸ ho

/-- Each of the six things an accepted command can do keeps the invariant. -/
theorem Accepted.keeps_inv {w : CommandWord} {s t : State} (hacc : Accepted w s t) (h : s.Inv) : t.Inv := by
  cases hacc with
  | pushed v => exact h.complete _ (Output.wellFormed_probe _)
  | construct | reset | length | invalid | illegal => exact h.complete _ rfl

/-- Settles O40, by everything a step can do: idling and `rst` show no output, and an accepted command shows one. -/
theorem stepKeepsOutputForms : Obligations.StepKeepsOutputForms := by
  intro s t hinv hstep
  obtain ⟨-, rfl⟩ | ⟨a, rest, -, rfl⟩ | ⟨w, rest, -, -, hacc⟩ := step_cases hstep
  · exact hinv
  · exact ⟨rfl, hinv.2⟩
  · exact hacc.keeps_inv hinv

end Sys2Proof.Machine
end

section
/-! SUPPORT. The assembler (`30_encoding.md` R73, R74): the words of each line, and the reader of literals. -/

namespace Sys2Proof.Machine

/-! The words of a line -/

theorem literalField_of_lt {width n : Nat} (h : n < 2 ^ width) : literalField width n = some (BitVec.ofNat width n) :=
  if_pos h

/-- R73: a literal wider than its field is refused. -/
theorem literalField_of_ge {width n : Nat} (h : 2 ^ width ≤ n) : literalField width n = none :=
  if_neg (Nat.not_lt.2 h)

/-- R74: a text is refused unless it is ASCII, and gives one PUSH per character, in text order. -/
theorem asmPushes_eq_ite (text : List Nat) :
    asmPushes text =
      if ∀ c ∈ text, c < 128 then some (text.map fun c => encode (.push (BitVec.ofNat 32 c))) else none := by
  induction text with
  | nil => rfl
  | cons c rest ih =>
    rw [asmPushes, ih]
    by_cases hc : c < 128
    · by_cases hrest : ∀ d ∈ rest, d < 128 <;> simp [hc, hrest]
    · simp [hc]

/-- Settles O49: each clause is the literal's field, within its width or refused. -/
theorem assemblerEncodesEachLine : Obligations.AssemblerEncodesEachLine := by
  refine ⟨fun n h => ?construct, fun n h => ?push, fun n h => ?word40, rfl, rfl,
    fun n h => ⟨?constructWide, ?pushWide⟩, fun n h => ?word40Wide⟩
  case construct | push | word40 => exact congrArg (Option.map _) (literalField_of_lt h)
  case constructWide | pushWide | word40Wide => exact congrArg (Option.map _) (literalField_of_ge h)

/-- Settles O50, by the words of an ASCII text. -/
theorem pseudoInstructionsExpand : Obligations.PseudoInstructionsExpand :=
  ⟨rfl, fun text h => (asmPushes_eq_ite text).trans (if_pos h)⟩

/-- Every word of a line other than `.word40` is the word of a well-formed command. -/
theorem assemble_eq_encode {line : AsmLine} {ws : List CommandWord} (h : assemble line = some ws)
    (hraw : ∀ n, line ≠ .word40 n) {w : CommandWord} (hw : w ∈ ws) :
    ∃ i : Instr, w = encode i ∧ i.wellFormed = true := by
  cases line with
  | blank =>
    cases h
    cases hw
  | construct seed =>
    cases seed with
    | none =>
      cases h
      exact ⟨_, List.mem_singleton.1 hw, rfl⟩
    | some n =>
      obtain ⟨v, -, rfl⟩ := Option.map_eq_some_iff.1 h
      exact ⟨_, List.mem_singleton.1 hw, rfl⟩
  | reset | length =>
    cases h
    exact ⟨_, List.mem_singleton.1 hw, rfl⟩
  | push n =>
    obtain ⟨v, -, rfl⟩ := Option.map_eq_some_iff.1 h
    exact ⟨_, List.mem_singleton.1 hw, rfl⟩
  | pushs text =>
    rw [assemble, asmPushes_eq_ite] at h
    obtain ⟨-, hws⟩ := Option.ite_none_right_eq_some.1 h
    cases hws
    obtain ⟨c, -, rfl⟩ := List.mem_map.1 hw
    exact ⟨_, rfl, rfl⟩
  | word40 n => exact absurd rfl (hraw n)

/-- Settles O51: the assembler writes words of well-formed commands, and such a word decodes to its command. -/
theorem assembledWordsAreWellFormed : Obligations.AssembledWordsAreWellFormed := by
  intro line ws h hraw w hw
  obtain ⟨i, rfl, hi⟩ := assemble_eq_encode h hraw hw
  exact ⟨i, decode_encode i, hi⟩

/-! Reading a literal -/

/-- A digit's character is read as the digit, in every base that has it. -/
theorem asmDigit_digitChar {base d : Nat} (hd : d < base) (hbase : base ≤ 16) :
    asmDigit base (Nat.digitChar d) = some d := by
  have value_of_char : ∀ e < 16, asmDigit base (Nat.digitChar e) = if e < base then some e else none := by
    intro e he
    interval_cases e <;> rfl
  rw [value_of_char d (hd.trans_le hbase), if_pos hd]

/-- The digits of a number, the most significant first, continue the number read so far. -/
theorem asmDigits_map_digitChar {base : Nat} (hbase : base ≤ 16) (ds : List Nat) (hds : ∀ d ∈ ds, d < base) (acc : Nat) :
    asmDigits base acc (ds.map Nat.digitChar) = some (ds.foldl (fun n d => d + base * n) acc) := by
  induction ds generalizing acc with
  | nil => rfl
  | cons d ds ih =>
    obtain ⟨hd, hrest⟩ := List.forall_mem_cons.1 hds
    rw [List.map_cons, asmDigits, asmDigit_digitChar hd hbase, Option.bind_some, ih hrest, List.foldl_cons,
      Nat.mul_comm, Nat.add_comm]

/-- The digits of a number, the most significant first, are read as that number. -/
theorem asmDigits_eq_ofDigits {base : Nat} (hbase : base ≤ 16) (ds : List Nat) (hds : ∀ d ∈ ds, d < base) :
    asmDigits base 0 (ds.map Nat.digitChar) = some (Nat.ofDigits base ds.reverse) := by
  rw [asmDigits_map_digitChar hbase ds hds, Nat.ofDigits_eq_foldr, List.foldr_reverse]
  rfl

/-- A text with no `x` in it is read in base ten. -/
theorem asmNumber_decimal {cs : List Char} (hne : cs ≠ []) (hx : 'x' ∉ cs) : asmNumber cs = asmDigits 10 0 cs := by
  unfold asmNumber
  split
  · simp at hx
  · rfl
  · exact absurd rfl hne

/-- Whether a character belongs to a word that is no quotation: it ends no word and opens no quote. -/
def asmPlain (c : Char) : Bool := !(asmSpace c || c == ';' || c == asmQuote)

/-- A word of plain characters is read to its end. -/
theorem asmWord_plain {cs : List Char} (h : ∀ c ∈ cs, asmPlain c = true) : asmWord cs = (cs, []) := by
  induction cs with
  | nil => rfl
  | cons c rest ih =>
    obtain ⟨hc, hrest⟩ := List.forall_mem_cons.1 h
    have ends_no_word : (asmSpace c || c == ';') = false := by
      simp only [asmPlain, Bool.not_eq_true', Bool.or_eq_false_iff] at hc ⊢
      exact hc.1
    simp only [asmWord, ends_no_word, ih hrest, Bool.false_eq_true, if_false]

/-- An operand of plain characters is read as a number. -/
theorem asmLiteral_plain {cs : List Char} (hne : cs ≠ []) (h : ∀ c ∈ cs, asmPlain c = true) :
    asmLiteral (' ' :: cs) = asmNumber cs := by
  obtain ⟨c, rest, rfl⟩ := List.exists_cons_of_ne_nil hne
  have hc := h c List.mem_cons_self
  simp only [asmPlain, Bool.not_eq_true', Bool.or_eq_false_iff] at hc
  obtain ⟨⟨no_space, -⟩, no_quote⟩ := hc
  have trimmed : asmTrim (' ' :: c :: rest) = c :: rest := by
    rw [asmTrim, if_pos (by decide), asmTrim, if_neg (by rw [no_space]; decide)]
  have at_end : asmAtEnd [] = true := rfl
  simp only [asmLiteral, trimmed, no_quote, asmWord_plain h, at_end, Bool.false_eq_true, if_false, if_true]

/-- R73: the line `PUSH` with an operand is the PUSH of the literal read. -/
theorem readAsmLine_push (cs : List Char) :
    readAsmLine ("PUSH ".toList ++ cs) = (asmLiteral (' ' :: cs)).map .push := rfl

/-- A digit's character is plain and is no `x`. -/
theorem digitChar_plain {d : Nat} (hd : d < 16) : asmPlain (Nat.digitChar d) = true ∧ Nat.digitChar d ≠ 'x' := by
  revert d
  decide

theorem plain_of_mem_digits {ds : List Nat} (hds : ∀ d ∈ ds, d < 16) {c : Char} (hc : c ∈ ds.map Nat.digitChar) :
    asmPlain c = true ∧ c ≠ 'x' := by
  obtain ⟨d, hd, rfl⟩ := List.mem_map.1 hc
  exact digitChar_plain (hds d hd)

theorem readAsmLine_push_decimal {ds : List Nat} (hne : ds ≠ []) (hds : ∀ d ∈ ds, d < 10) :
    readAsmLine ("PUSH ".toList ++ ds.map Nat.digitChar) = some (.push (Nat.ofDigits 10 ds.reverse)) := by
  have plain : ∀ c ∈ ds.map Nat.digitChar, asmPlain c = true ∧ c ≠ 'x' := fun c =>
    plain_of_mem_digits fun d hd => (hds d hd).trans (by decide)
  have hne' : ds.map Nat.digitChar ≠ [] := mt List.map_eq_nil_iff.1 hne
  rw [readAsmLine_push, asmLiteral_plain hne' fun c hc => (plain c hc).1,
    asmNumber_decimal hne' fun hx => (plain 'x' hx).2 rfl, asmDigits_eq_ofDigits (by decide) ds hds]
  rfl

theorem readAsmLine_push_hexadecimal {ds : List Nat} (hne : ds ≠ []) (hds : ∀ d ∈ ds, d < 16) :
    readAsmLine ("PUSH 0x".toList ++ ds.map Nat.digitChar) = some (.push (Nat.ofDigits 16 ds.reverse)) := by
  obtain ⟨c, rest, hcs⟩ := List.exists_cons_of_ne_nil (mt (List.map_eq_nil_iff (f := Nat.digitChar)).1 hne)
  have plain : ∀ c ∈ '0' :: 'x' :: ds.map Nat.digitChar, asmPlain c = true :=
    List.forall_mem_cons.2 ⟨by decide, List.forall_mem_cons.2 ⟨by decide, fun c hc => (plain_of_mem_digits hds hc).1⟩⟩
  have split_line : "PUSH 0x".toList ++ ds.map Nat.digitChar = "PUSH ".toList ++ '0' :: 'x' :: ds.map Nat.digitChar := rfl
  have hex : asmNumber ('0' :: 'x' :: ds.map Nat.digitChar) = asmDigits 16 0 (ds.map Nat.digitChar) := by
    rw [hcs]
    rfl
  rw [split_line, readAsmLine_push, asmLiteral_plain (List.cons_ne_nil _ _) plain, hex,
    asmDigits_eq_ofDigits le_rfl ds hds]
  rfl

/-- R73: a single-quoted character stands for its ASCII code. -/
theorem asmLiteral_quoted {c : Char} (h : c.toNat < 128) :
    asmLiteral [' ', asmQuote, c, asmQuote] = some c.toNat := by
  have trimmed : asmTrim [' ', asmQuote, c, asmQuote] = [asmQuote, c, asmQuote] := rfl
  have at_end : asmAtEnd [] = true := rfl
  simp [asmLiteral, trimmed, at_end, h]

/-- Settles O52, one lemma for each of the three ways to write a literal. -/
theorem literalsAreReadAsWritten : Obligations.LiteralsAreReadAsWritten := by
  refine ⟨fun ds => readAsmLine_push_decimal, fun ds => readAsmLine_push_hexadecimal, fun c h => ?_⟩
  rw [readAsmLine_push, asmLiteral_quoted h]
  rfl

end Sys2Proof.Machine
end

section
/-! SUPPORT. The lifecycle commands (`40_commands.md` R80 to R82): what CONSTRUCT, RESET and LENGTH answer, and what LENGTH counts
along a run. -/

namespace Sys2Proof.Machine

/-! The count along a run -/

/-- R80, R81: what begins a new byte stream clears the count. -/
theorem effect_totalLen_of_opensStream {x : Input} (hx : x.opensStream = true) (k : Hasher) :
    (effect x k).1.totalLen = 0#32 := by
  cases x with
  | rst a => cases hx
  | command w =>
    rcases hd : decode w with i | op <;> simp only [Input.opensStream, hd] at hx
    case illegal => cases hx
    case legal =>
      cases i with
      | construct | reset => simp only [effect, hd, Hasher.fresh_totalLen]
      | length | push => cases hx

/-- R27: a command that begins no new stream adds one to the count exactly when it is a PUSH of a byte. -/
theorem effect_totalLen_of_command {x : Input} (hc : x.isCommand = true) (hx : x.opensStream = false) (k : Hasher) :
    (effect x k).1.totalLen = k.totalLen + BitVec.ofNat 32 (if x.pushes then 1 else 0) := by
  cases x with
  | rst a => cases hc
  | command w =>
    rcases hd : decode w with i | op <;> simp only [Input.opensStream, hd] at hx
    case illegal => simp only [effect, Input.pushes, hd, Bool.false_eq_true, if_false, BitVec.add_zero]
    case legal =>
      cases i with
      | construct | reset => cases hx
      | length o => simp only [effect, Input.pushes, hd, Bool.false_eq_true, if_false, BitVec.add_zero]
      | push v =>
        simp only [effect, Input.pushes, hd, decide_eq_true_eq]
        split
        case isTrue => exact Hasher.pushed_totalLen k _
        case isFalse => exact (BitVec.add_zero _).symm

/-- Commands that begin no new stream add to the count the number of pushes of bytes among them, modulo 2^32. -/
theorem effects_totalLen_of_commands {xs : List Input} (hxs : ∀ x ∈ xs, x.isCommand = true ∧ x.opensStream = false)
    (k : Hasher) : (effects xs k).1.totalLen = k.totalLen + BitVec.ofNat 32 (xs.countP Input.pushes) := by
  induction xs generalizing k with
  | nil => exact (BitVec.add_zero _).symm
  | cons x xs ih =>
    obtain ⟨⟨hc, hx⟩, htail⟩ := List.forall_mem_cons.1 hxs
    rw [effects, ih htail, effect_totalLen_of_command hc hx, BitVec.add_assoc, ← BitVec.ofNat_add, List.countP_cons,
      Nat.add_comm]

/-- R82: the last output of actions that end in a LENGTH is the count that the actions before it leave. -/
theorem effects_concat_length_snd (xs : List Input) {l : CommandWord} {o : Word} (hl : decode l = .legal (.length o))
    (k : Hasher) :
    (effects (xs ++ [.command l]) k).2 = (effects xs k).2 ++ [⟨⟨.ok, (effects xs k).1.totalLen⟩, none⟩] := by
  simp only [effects_append, effects, effect, hl, List.append_nil]

/-- Settles O45: the restart clears the count, each successful push adds one to it, and LENGTH answers it. -/
theorem lengthCountsSuccessfulPushes : Obligations.LengthCountsSuccessfulPushes := by
  intro s w l o xs rest hr hw hl hxs hi
  have hinputs : s.inputs = (.command w :: xs ++ [.command l]) ++ rest := by rw [hi, List.append_assoc]; rfl
  have hlength : (.command w :: xs ++ [.command l] : List Input).length = xs.length + 2 := List.length_append
  have hcount : (effects (.command w :: xs) s.hasher).1.totalLen = BitVec.ofNat 32 (xs.filter Input.pushes).length := by
    rw [effects, effects_totalLen_of_commands hxs, effect_totalLen_of_opensStream hw, BitVec.zero_add,
      List.countP_eq_length_filter]
  have hrun := run_eq_effects _ hr hinputs
  rw [hlength] at hrun
  refine ⟨_, hrun, rfl, ?_⟩
  rw [effects_concat_length_snd _ hl, hcount, ← List.append_assoc, List.getLast?_concat]

/-! One command -/

theorem exec_construct (v : Word) (s : State) : exec (.construct v) s = .next (s.respond (Hasher.fresh v) 0#32) := rfl

theorem exec_reset (o : Word) (s : State) :
    exec (.reset o) s = .next (s.respond (Hasher.fresh s.hasher.seed) 0#32) := rfl

theorem exec_length (o : Word) (s : State) : exec (.length o) s = .next (s.respond s.hasher s.hasher.totalLen) := rfl

/-- R80: whatever the earlier state, CONSTRUCT leaves a fresh hasher of its operand. -/
theorem hasher_of_exec_construct {v : Word} {s t : State} (h : exec (.construct v) s = .next t) :
    t.hasher = Hasher.fresh v := by
  rw [exec_construct] at h
  cases h
  rfl

/-- R81: RESET leaves a fresh hasher of the current seed. -/
theorem hasher_of_exec_reset {o : Word} {s t : State} (h : exec (.reset o) s = .next t) :
    t.hasher = Hasher.fresh s.hasher.seed := by
  rw [exec_reset] at h
  cases h
  rfl

/-- Settles O1: CONSTRUCT leaves a fresh hasher of its operand, and that of seed 0 is the power-on state. -/
theorem constructLoadsSeedAndClears : Obligations.ConstructLoadsSeedAndClears :=
  ⟨fun v => decode_encode (.construct v), exec_construct,
    fun _ _ h => (hasher_of_exec_construct h).trans Hasher.fresh_zero⟩

/-- Settles O2: RESET leaves a fresh hasher of the current seed, which a fresh hasher already is and CONSTRUCT of that
seed leaves too. -/
theorem resetRestoresSeededState : Obligations.ResetRestoresSeededState := by
  refine ⟨fun o => decode_encode (.reset o), exec_reset, fun o p s t u ht hu => ?twice,
    fun o v s t u ht hu => ?afterConstruct, fun o u hu => ?afterPowerOn, fun o s t u ht hu => ?sameAsConstruct⟩
  case twice => rw [hasher_of_exec_reset hu, hasher_of_exec_reset ht, Hasher.fresh_seed]
  case afterConstruct => rw [hasher_of_exec_reset hu, hasher_of_exec_construct ht, Hasher.fresh_seed]
  case afterPowerOn => exact (hasher_of_exec_reset hu).trans Hasher.fresh_zero
  case sameAsConstruct => rw [hasher_of_exec_reset ht, hasher_of_exec_construct hu]

/-- Settles O3: LENGTH responds with the count and passes the block's state on. -/
theorem lengthAnswersCountAndWritesNothing : Obligations.LengthAnswersCountAndWritesNothing :=
  ⟨fun o => decode_encode (.length o), exec_length⟩

end Sys2Proof.Machine
end

section
/-! SUPPORT. The functions of the mixing steps (`41_push.md` R90 to R95, R102): the rotates as true rotations, the key mix and the
finalization mix as compositions of bijections, and the little-endian words as numbers in base 2^8. -/

namespace Sys2Proof.Machine

/-! Rotations and bijections -/

/-- R102: the rotate of the key mix is the true rotation. -/
theorem rotl32_keyRot (x : Word) : rotl32 x keyRot = x.rotateLeft 15 := rotl32_eq_rotateLeft x (by decide)

/-- R102: the rotate of the block mix is the true rotation. -/
theorem rotl32_mixRot (x : Word) : rotl32 x mixRot = x.rotateLeft 13 := rotl32_eq_rotateLeft x (by decide)

/-- Settles O32, by the two rotates; the rest are the equations of the step. -/
theorem rotateModeIsCanonical : Obligations.RotateModeIsCanonical :=
  ⟨rfl, fun _ => rfl, fun _ => rfl, rotl32_keyRot, rotl32_mixRot⟩

/-- R90: multiplication by an odd word is a bijection, because an odd number is prime to 2^32. -/
theorem mul32_bijective {c : Word} (hc : Odd c.toNat) : Function.Bijective (mul32 · c) := by
  refine Function.Injective.bijective_of_finite fun x y hxy => ?_
  have prime_to : (2 ^ 32).gcd c.toNat = 1 := Nat.Coprime.pow_left 32 (Nat.coprime_two_left.2 hc)
  have products : x.toNat * c.toNat ≡ y.toNat * c.toNat [MOD 2 ^ 32] := by
    rw [Nat.ModEq, ← mul32_toNat, ← mul32_toNat]
    exact congrArg BitVec.toNat hxy
  exact BitVec.eq_of_toNat_eq (Nat.ModEq.eq_of_lt_of_lt (products.cancel_right_of_coprime prime_to) x.isLt y.isLt)

/-- R90: a rotation is a bijection, because rotating further to the full width gives the word back. -/
theorem rotateLeft_bijective (n : Nat) : Function.Bijective (BitVec.rotateLeft · n : Word → Word) := by
  have full_turn : Function.LeftInverse (BitVec.rotateLeft · (32 - n % 32)) (BitVec.rotateLeft · n : Word → Word) := by
    refine fun x => BitVec.eq_of_getMsbD_eq fun i hi => ?_
    have index : (n + (32 - n % 32 + i) % 32) % 32 = i := by omega
    have in_range : (32 - n % 32 + i) % 32 < 32 := Nat.mod_lt _ (by decide)
    simp only [BitVec.getMsbD_rotateLeft, hi, in_range, index, decide_true, Bool.true_and]
  exact full_turn.injective.bijective_of_finite

/-- The xor-shift is linear over xor. -/
theorem xorShift_xor (x y : Word) (n : Nat) : xorShift (x ^^^ y) n = xorShift x n ^^^ xorShift y n := by
  simp only [xorShift, shr32, BitVec.ushiftRight_xor_distrib]
  ac_rfl

/-- Only zero equals its own shift to the right, so only zero goes to zero. -/
theorem eq_zero_of_xorShift_eq_zero {d : Word} {n : Nat} (hn : n ≠ 0) (h : xorShift d n = 0#32) : d = 0#32 := by
  have own_shift : d.toNat = d.toNat / 2 ^ n := by
    conv_lhs => rw [BitVec.xor_eq_zero_iff.1 h]
    exact shr32_toNat d n
  refine BitVec.eq_of_toNat_eq (by_contra fun hd => ?_)
  have smaller := Nat.div_lt_self (Nat.pos_of_ne_zero hd) (Nat.one_lt_two_pow hn)
  omega

/-- R94: an xor with a proper right shift is a bijection, being linear over xor with kernel zero. -/
theorem xorShift_bijective {n : Nat} (hn : n ≠ 0) : Function.Bijective (xorShift · n) := by
  refine Function.Injective.bijective_of_finite fun x y (hxy : xorShift x n = xorShift y n) => ?_
  refine BitVec.xor_eq_zero_iff.1 (eq_zero_of_xorShift_eq_zero hn ?_)
  rw [xorShift_xor, hxy, BitVec.xor_self]

/-! The key mix and the finalization mix -/

/-- R90: the key mix with its literals. -/
theorem kmix_eq (k : Word) : kmix k = (k * 0xcc9e2d51#32).rotateLeft 15 * 0x1b873593#32 := by
  rw [kmix, rotl32_keyRot]
  rfl

@[simp] theorem kmix_zero : kmix 0#32 = 0#32 := by decide

theorem kmix_bijective : Function.Bijective kmix := by
  have rotate : Function.Bijective (rotl32 · keyRot) := by
    simpa only [rotl32_keyRot] using rotateLeft_bijective 15
  exact (mul32_bijective (c := c2) (by decide)).comp (rotate.comp (mul32_bijective (c := c1) (by decide)))

/-- Settles O11: the key mix is a rotation between two multiplications by odd words. -/
theorem keyMixFormulaAndBijection : Obligations.KeyMixFormulaAndBijection :=
  ⟨kmix_eq, kmix_zero, kmix_bijective, by decide⟩

theorem fmix32_bijective : Function.Bijective fmix32 :=
  (xorShift_bijective (n := finalShift3) (by decide)).comp <|
    (mul32_bijective (c := finalMul2) (by decide)).comp <|
    (xorShift_bijective (n := finalShift2) (by decide)).comp <|
    (mul32_bijective (c := finalMul1) (by decide)).comp <|
    xorShift_bijective (n := finalShift1) (by decide)

/-- R94: the example that R95 uses. -/
theorem fmix32_one : fmix32 0x00000001#32 = 0x514e28b7#32 := by decide

/-- Settles O15: the finalization mix is made of xor-shifts and multiplications by odd words. -/
theorem finalizationFormulaAndBijection : Obligations.FinalizationFormulaAndBijection := by
  refine ⟨fun p p1 p2 p3 p4 p5 h1 h2 h3 h4 h5 => ?_, by decide, fmix32_bijective, fmix32_one, by decide⟩
  rw [h5, h4, h3, h2, h1]
  rfl

/-! Little-endian words -/

/-- R44, R91: the word of up to four bytes is the number whose digits in base 2^8 they are, the first byte lowest. -/
theorem leWord_toNat {bs : List Byte} (h : bs.length ≤ 4) :
    (leWord bs).toNat = Nat.ofDigits (2 ^ 8) (bs.map BitVec.toNat) := by
  induction bs with
  | nil => rfl
  | cons b rest ih =>
    have rest_length : rest.length ≤ 3 := Nat.le_of_succ_le_succ h
    have digits : ∀ d ∈ rest.map BitVec.toNat, d < 2 ^ 8 := List.forall_mem_map.2 fun c _ => c.isLt
    have below := Nat.ofDigits_lt_base_pow_length (by decide) digits
    rw [List.length_map] at below
    have fits : Nat.ofDigits (2 ^ 8) (rest.map BitVec.toNat) < 2 ^ 24 :=
      below.trans_le (Nat.pow_le_pow_right (n := 2 ^ 8) (by decide) rest_length)
    have low_byte : b.toNat % 2 ^ 32 = b.toNat := Nat.mod_eq_of_lt (b.isLt.trans (by decide))
    rw [leWord, BitVec.toNat_or, BitVec.toNat_setWidth, BitVec.toNat_shiftLeft, ih (by omega), low_byte,
      Nat.shiftLeft_eq, Nat.mod_eq_of_lt (by omega), Nat.or_comm, Nat.mul_comm,
      ← Nat.two_pow_add_eq_or_of_lt b.isLt, Nat.add_comm, List.map_cons, Nat.ofDigits_cons]

theorem leWord_singleton (b : Byte) : leWord [b] = b.setWidth 32 := by
  rw [leWord, leWord, BitVec.zero_shiftLeft, BitVec.or_zero]

/-- R91: the block word is the little-endian word of the four slots. -/
theorem blockWord_eq_leWord (buf : Vector Byte 4) : blockWord buf = leWord [buf[0], buf[1], buf[2], buf[3]] := by
  simp only [blockWord, leWord, shl32, zext32, BitVec.shiftLeft_or_distrib, ← BitVec.shiftLeft_add, BitVec.zero_shiftLeft,
    BitVec.or_zero, BitVec.or_assoc]

/-- The first byte is the lowest. -/
theorem leWord_cons (b : Byte) (rest : List Byte) : leWord (b :: rest) = leWord rest <<< 8 ||| b.setWidth 32 :=
  BitVec.or_comm _ _

/-- What is shifted past a byte has no bit in common with it. -/
theorem leWord_cons_eq_xor (b : Byte) (rest : List Byte) :
    leWord (b :: rest) = leWord rest <<< 8 ^^^ b.setWidth 32 := by
  refine BitVec.eq_of_getElem_eq fun i hi => ?_
  rw [leWord_cons, BitVec.getElem_or, BitVec.getElem_xor, BitVec.getElem_setWidth, BitVec.getElem_shiftLeft]
  by_cases low : i < 8
  · simp only [low, decide_true, Bool.not_true, Bool.false_and, Bool.false_or, Bool.false_xor]
  · rw [BitVec.getLsbD_of_ge b i (Nat.le_of_not_lt low), Bool.or_false, Bool.xor_false]

/-! The tail word of one, two and three bytes -/

theorem tailWord_one (buf : Vector Byte 4) : tailWord buf 1 = leWord [buf[0]] := by
  change 0#32 ||| 0#32 ||| buf[0].setWidth 32 = _
  rw [leWord_singleton, BitVec.zero_or, BitVec.zero_or]

theorem tailWord_two (buf : Vector Byte 4) : tailWord buf 2 = leWord [buf[0], buf[1]] := by
  change 0#32 ||| buf[1].setWidth 32 <<< 8 ||| buf[0].setWidth 32 = _
  rw [leWord_cons, leWord_singleton, BitVec.zero_or]

theorem tailWord_three (buf : Vector Byte 4) : tailWord buf 3 = leWord [buf[0], buf[1], buf[2]] := by
  change buf[2].setWidth 32 <<< 16 ||| buf[1].setWidth 32 <<< 8 ||| buf[0].setWidth 32 = _
  rw [leWord_cons, leWord_cons, leWord_singleton, BitVec.shiftLeft_or_distrib, ← BitVec.shiftLeft_add]

/-- R93: the tail word of `n` bytes is the little-endian word of the first `n` slots. -/
theorem tailWord_eq_leWord (buf : Vector Byte 4) {n : Nat} (hn : 1 ≤ n) (h : n ≤ 3) :
    tailWord buf n = leWord ([buf[0], buf[1], buf[2]].take n) := by
  interval_cases n
  · exact tailWord_one buf
  · exact tailWord_two buf
  · exact tailWord_three buf

/-- Settles O14: the tail words are little-endian words, whose bytes have no bit in common. -/
theorem tailWordHoldsThePresentBytes : Obligations.TailWordHoldsThePresentBytes := by
  have one_byte : leWord [0xFF#8] = 0x000000FF#32 := by decide
  have two_bytes : leWord [0x48#8, 0x65#8] = 0x00006548#32 := by decide
  have three_bytes : leWord [0x00#8, 0x01#8, 0x02#8] = 0x00020100#32 := by decide
  refine ⟨fun buf => ?one, fun buf => ?two, fun buf => ?three, fun buf other n hn _ => tailWord_congr hn,
    fun buf => ?twoXor, fun buf => ?threeXor, fun _ => (tailWord_three _).trans three_bytes,
    fun _ _ => (tailWord_two _).trans two_bytes, fun _ _ _ => (tailWord_one _).trans one_byte⟩
  case one =>
    rw [tailWord_one, leWord_toNat (by simp)]
    exact Nat.ofDigits_singleton
  case two =>
    rw [tailWord_two, leWord_toNat (by simp)]
    simp only [List.map, Nat.ofDigits_cons, Nat.ofDigits_nil]
    omega
  case three =>
    rw [tailWord_three, leWord_toNat (by simp)]
    simp only [List.map, Nat.ofDigits_cons, Nat.ofDigits_nil]
    omega
  case twoXor => rw [tailWord_two, leWord_cons_eq_xor, leWord_singleton]
  case threeXor =>
    rw [tailWord_three, leWord_cons_eq_xor, leWord_cons_eq_xor, leWord_singleton, BitVec.shiftLeft_xor_distrib,
      ← BitVec.shiftLeft_add]

/-- Settles O12: the block word is the number with the four slots as digits. -/
theorem blockWordIsLittleEndian : Obligations.BlockWordIsLittleEndian := by
  refine ⟨fun buf => ?_, by decide⟩
  rw [blockWord_eq_leWord, leWord_toNat (by simp)]
  simp only [List.map, Nat.ofDigits_cons, Nat.ofDigits_nil]
  omega

/-! The block mix and the tail probe -/

/-- R92: the block mix with its literals. -/
theorem blockMix_eq (h : Word) (buf : Vector Byte 4) :
    blockMix h buf = (h ^^^ kmix (blockWord buf)).rotateLeft 13 * 5#32 + 0xe6546b64#32 := by
  rw [blockMix, rotl32_mixRot]
  rfl

/-- Settles O13, by the equation of the block mix. -/
theorem blockMixFormula : Obligations.BlockMixFormula := by
  refine ⟨blockMix_eq, fun h buf => ?_, by decide, by decide, by decide, by decide⟩
  rw [blockMix_eq, BitVec.toNat_add, BitVec.toNat_mul]
  exact Nat.mod_add_mod _ _ _

/-- R93: a tail of zero bytes gives the word 0. -/
theorem tailWord_of_zero_bytes {buf : Vector Byte 4} {n : Nat} (hn : 1 ≤ n)
    (hzero : ∀ i : Fin 4, i.val < n → buf[i] = 0#8) : tailWord buf n = 0#32 := by
  have zero_slots : tailWord (Hasher.fresh 0#32).buf n = 0#32 := by
    unfold tailWord
    split_ifs <;> rfl
  rw [tailWord_congr hn fun i hi => (hzero i hi).trans (Hasher.fresh_slot 0#32 i).symm, zero_slots]

/-- R95: a tail of zero bytes mixes in nothing but the count. -/
theorem tailProbe_of_zero_bytes (h : Word) {buf : Vector Byte 4} {n : Nat} (len : Word) (hn : 1 ≤ n)
    (hzero : ∀ i : Fin 4, i.val < n → buf[i] = 0#8) : tailProbe h buf n len = fmix32 (h ^^^ len) := by
  rw [tailProbe, tailWord_of_zero_bytes hn hzero, kmix_zero, BitVec.xor_zero]

/-- Settles O16; the example is the finalization of a count of 1. -/
theorem tailProbeFormula : Obligations.TailProbeFormula := by
  refine ⟨fun _ _ _ _ _ _ => rfl, fun h buf n len hn _ => tailProbe_of_zero_bytes h len hn, fun buf hbuf => ?_⟩
  have zero_byte : ∀ i : Fin 4, i.val < 1 → buf[i] = 0#8 := fun i hi => by
    obtain rfl : i = 0 := Fin.ext (by omega)
    exact hbuf
  rw [tailProbe_of_zero_bytes 0#32 1#32 le_rfl zero_byte, BitVec.zero_xor, fmix32_one]

end Sys2Proof.Machine
end

section
/-! SUPPORT. PUSH (`41_push.md` R96 to R101): one PUSH, the probes of a byte stream in closed form, and the published hash. -/

namespace Sys2Proof.Machine

/-! One PUSH -/

theorem exec_push_of_le {v : Word} (s : State) (h : v.toNat ≤ 255) :
    exec (.push v) s = .next (s.respondProbe (s.hasher.pushed (v.setWidth 8)) (s.hasher.probe (v.setWidth 8))) :=
  execPush_of_le s h

/-- R98: a PUSH that completes a block answers the accumulator it commits. -/
theorem Hasher.probe_of_boundary {k : Hasher} (h : phase (k.totalLen + 1#32) = 0) (b : Byte) :
    k.probe b = (k.pushed b).h1 := by
  rw [Hasher.probe_eq_ite, Hasher.pushed_h1, if_pos h, if_pos h]

/-- R95: any other PUSH answers a tail probe. -/
theorem Hasher.probe_of_tail {k : Hasher} (h : phase (k.totalLen + 1#32) ≠ 0) (b : Byte) :
    k.probe b = tailProbe k.h1 (k.stage b) (phase (k.totalLen + 1#32)).val (k.totalLen + 1#32) := by
  rw [Hasher.probe_eq_ite, if_neg h]

/-- Settles O5: the given buffer and count are those of the block after the PUSH, whose accumulator and probe depend on the
phase. -/
theorem pushStagesByteAndAnswersProbe : Obligations.PushStagesByteAndAnswersProbe := by
  refine ⟨fun v => decode_encode (.push v), fun v s buf' len' hv hbuf hlen => ?_, fun v s => execPush_of_gt s⟩
  obtain rfl : buf' = s.hasher.stage (v.setWidth 8) := hbuf
  obtain rfl : len' = s.hasher.totalLen + 1#32 :=
    BitVec.eq_of_toNat_eq (hlen.trans (BitVec.toNat_add s.hasher.totalLen 1#32).symm)
  have hphase : phase (s.hasher.totalLen + 1#32) = 0 ↔ (s.hasher.totalLen + 1#32).toNat % 4 = 0 := Fin.ext_iff
  rw [exec_push_of_le s hv]
  by_cases hz : (s.hasher.totalLen + 1#32).toNat % 4 = 0
  case pos =>
    have hh1 := Hasher.pushed_h1 s.hasher (v.setWidth 8)
    rw [if_pos (hphase.2 hz)] at hh1
    rw [if_pos hz, Hasher.probe_of_boundary (hphase.2 hz), ← hh1]
    rfl
  case neg =>
    rw [if_neg hz, Hasher.probe_of_tail (mt hphase.1 hz), ← Hasher.pushed_h1_of_ne_zero (mt hphase.1 hz) (v.setWidth 8)]
    rfl

/-- Settles O7, by the accumulator that a PUSH in phase 3 commits. -/
theorem boundaryProbeIsTheRawAccumulator : Obligations.BoundaryProbeIsTheRawAccumulator := by
  intro v s hv h3
  have hphase : phase s.hasher.totalLen = 3 := Fin.ext h3
  refine ⟨_, exec_push_of_le s hv, Hasher.pushed_h1_of_phase_three hphase _, ?_⟩
  rw [Hasher.probe_of_boundary ((phase_succ_eq_zero_iff _).2 hphase)]
  rfl

/-- Settles O8, by the accumulator and the staged buffer of a PUSH off a block boundary. -/
theorem tailPushKeepsAccumulator : Obligations.TailPushKeepsAccumulator := by
  intro v s hv h3
  have hphase : phase s.hasher.totalLen ≠ 3 := fun h => h3 (congrArg Fin.val h)
  refine ⟨_, exec_push_of_le s hv, Hasher.pushed_h1_of_ne_zero (mt (phase_succ_eq_zero_iff _).1 hphase) _, rfl, rfl,
    fun i => (Hasher.stage_getElem (v.setWidth 8) s.hasher i).trans ?_⟩
  have hslot : phase s.hasher.totalLen = i ↔ i.val = s.hasher.totalLen.toNat % 4 := Fin.ext_iff.trans eq_comm
  simp only [hslot]

/-! The probes of neutral commands, restarts and pushes -/

/-- R100: a neutral command shows no probe. -/
theorem effect_neutral_probes {y : Input} (hy : y.neutral = true) (k : Hasher) :
    (effect y k).2.filterMap (·.trace) = [] := by
  cases y with
  | rst a => rfl
  | command w =>
    rcases hd : decode w with i | op
    case illegal => simp [effect, hd]
    case legal =>
      simp only [Input.neutral, hd] at hy
      cases i with
      | construct seedIn => cases hy
      | reset o => cases hy
      | length o => simp [effect, hd]
      | push v =>
        have hgt : 255 < v.toNat := of_decide_eq_true hy
        simp [effect, hd, Nat.not_le.2 hgt]

/-- R100: neutral commands anywhere in a stream leave its probes as they are. -/
theorem Interleaves.effects_probes {xs ys zs : List Input} (h : Interleaves xs ys zs)
    (hy : ∀ y ∈ ys, y.neutral = true) (k : Hasher) :
    (effects zs k).2.filterMap (·.trace) = (effects xs k).2.filterMap (·.trace) := by
  induction h generalizing k with
  | done => rfl
  | left x _ ih => rw [effects, effects, List.filterMap_append, List.filterMap_append, ih hy]
  | right y _ ih =>
    obtain ⟨hhead, htail⟩ := List.forall_mem_cons.1 hy
    rw [effects, List.filterMap_append, effect_neutral_probes hhead, effect_neutral_fst hhead, ih htail, List.nil_append]

/-- Settles O46: both runs are what their actions do, and neutral commands do nothing to the block or the probes. -/
theorem neutralCommandsDisturbNothing : Obligations.NeutralCommandsDisturbNothing := by
  intro s xs ys zs hr hil hneutral
  refine ⟨_, _, run_eq_effects zs (s := { s with inputs := zs }) (rest := []) hr (List.append_nil zs).symm,
    run_eq_effects xs (s := { s with inputs := xs }) (rest := []) hr (List.append_nil xs).symm,
    hil.effects_fst hneutral s.hasher, ?_⟩
  simp only [State.probes, List.filterMap_append, hil.effects_probes hneutral]

/-- R131: a CONSTRUCT or a RESET shows no probe. -/
theorem effect_probes_of_opensStream {x : Input} (hx : x.opensStream = true) (k : Hasher) :
    (effect x k).2.filterMap (·.trace) = [] := by
  cases x with
  | rst a => cases hx
  | command w =>
    rcases hd : decode w with i | op <;> simp only [Input.opensStream, hd] at hx
    case illegal => cases hx
    case legal =>
      cases i with
      | construct | reset => simp [effect, hd]
      | length | push => cases hx

/-- A PUSH of a byte shows its probe. -/
theorem effect_pushByte_probes (b : Byte) (k : Hasher) :
    (effect (.pushByte b) k).2.filterMap (·.trace) = [k.probe b] := by
  have hle : (b.setWidth 32).toNat ≤ 255 := by
    have := b.isLt
    rw [BitVec.toNat_setWidth]
    omega
  have hback : (b.setWidth 32).setWidth 8 = b := BitVec.setWidth_setWidth_of_le b (by decide)
  simp only [Input.pushByte, effect, decode_encode, if_pos hle, hback]
  rfl

/-! The probe sequence in closed form -/

section
variable {seed : Word} {bs : List Byte} {k : Hasher} (h : k.Absorbed seed bs)
include h

/-- R34: the bytes after the last whole block stand in the first slots, in order. -/
theorem Hasher.Absorbed.tailBytes_eq_take :
    tailBytes bs = [k.buf[0], k.buf[1], k.buf[2]].take (bs.length % 4) := by
  refine List.ext_getElem? fun i => ?_
  by_cases hi : i < bs.length % 4
  case pos =>
    have hslot := h.slots_eq ⟨i, by omega⟩ hi
    have hi3 : i < 3 := by omega
    rw [tailBytes, List.getElem?_drop, hslot, List.getElem?_take_of_lt hi]
    interval_cases i <;> rfl
  case neg =>
    have htail := tailBytes_length bs
    rw [List.getElem?_eq_none (by omega), List.getElem?_eq_none (by rw [List.length_take]; omega)]

/-- R100: the probe of the next PUSH is the closed form of the bytes with the new one. -/
theorem Hasher.Absorbed.probe_eq (b : Byte) : k.probe b = closedProbe seed (bs ++ [b]) := by
  have hpushed := h.pushed b
  have hphase : (phase (k.totalLen + 1#32)).val = (bs ++ [b]).length % 4 := hpushed.phase_val
  by_cases hz : phase (k.totalLen + 1#32) = 0
  case pos =>
    have hlen : (bs ++ [b]).length % 4 = 0 := hphase.symm.trans (congrArg Fin.val hz)
    rw [Hasher.probe_of_boundary hz, hpushed.h1_eq, closedProbe, if_pos hlen]
  case neg =>
    have hne : (bs ++ [b]).length % 4 ≠ 0 := fun h0 => hz (Fin.ext (hphase.trans h0))
    rw [Hasher.probe_of_tail hz, closedProbe, if_neg hne, tailProbe, hphase, tailWord_eq_leWord _ (by omega) (by omega),
      ← Hasher.pushed_h1_of_ne_zero hz b, ← Hasher.pushed_totalLen k b, ← Hasher.pushed_buf, hpushed.h1_eq,
      hpushed.totalLen_eq, hpushed.tailBytes_eq_take]

end

/-- R100: the probes of the pushes of `new` after those of `bs`. -/
theorem Hasher.Absorbed.probes_eq {seed : Word} (new : List Byte) {bs : List Byte} {k : Hasher}
    (h : k.Absorbed seed bs) :
    (effects (new.map Input.pushByte) k).2.filterMap (·.trace) =
      (List.range new.length).map fun j => closedProbe seed (bs ++ new.take (j + 1)) := by
  induction new generalizing bs k with
  | nil => rfl
  | cons b new ih =>
    rw [List.map_cons, effects, List.filterMap_append, effect_pushByte_probes, effect_pushByte_fst, ih (h.pushed b),
      h.probe_eq, List.length_cons, List.range_succ_eq_map, List.map_cons, List.map_map]
    simp [Function.comp_def]

/-- Settles O44: the restart leaves a fresh hasher and shows no probe, neutral commands change no probe, and each push shows
the closed form. -/
theorem probeSequenceInClosedForm : Obligations.ProbeSequenceInClosedForm := by
  intro s w seed bs ys zs rest hr hw _ hil hneutral hi
  refine ⟨_, run_eq_effects (.command w :: zs) (rest := rest) hr hi, ?_⟩
  have hopens : (Input.command w).opensStream = true := by
    obtain hd | ⟨⟨o, hd⟩, -⟩ := hw <;> simp only [Input.opensStream, hd]
  have hprobes := (Hasher.Absorbed.fresh seed).probes_eq bs
  rw [State.probes, List.filterMap_append, effects, List.filterMap_append, effect_probes_of_opensStream hopens,
    effect_restart_fst hw, hil.effects_probes hneutral, hprobes]
  rfl

/-! The published hash -/

/-- An append as a number: the second word is the low part. -/
theorem append_toNat {m n : Nat} (x : BitVec m) (y : BitVec n) : (x ++ y).toNat = y.toNat + 2 ^ n * x.toNat := by
  rw [BitVec.toNat_append, Nat.shiftLeft_eq, Nat.mul_comm, ← Nat.two_pow_add_eq_or_of_lt y.isLt, Nat.add_comm]

/-- The published words write the first byte lowest, as R91 does. -/
theorem append_eq_leWord (b0 b1 b2 b3 : Byte) : (b3 ++ b2 ++ b1 ++ b0 : Word) = leWord [b0, b1, b2, b3] := by
  refine BitVec.eq_of_toNat_eq ?_
  rw [leWord_toNat (by simp)]
  change (b3 ++ b2 ++ b1 ++ b0).toNat = Nat.ofDigits (2 ^ 8) [b0.toNat, b1.toNat, b2.toNat, b3.toNat]
  simp only [append_toNat, Nat.ofDigits_cons, Nat.ofDigits_nil]
  omega

theorem publishedScramble_eq_kmix (k : Word) : publishedScramble k = kmix k :=
  (kmix_eq k).symm

theorem publishedFinal_eq_fmix32 (h : Word) : publishedFinal h = fmix32 h := rfl

theorem publishedRound_eq_blockMix (h : Word) (buf : Vector Byte 4) :
    publishedRound h (blockWord buf) = blockMix h buf := by
  rw [publishedRound, publishedScramble_eq_kmix, blockMix_eq]

/-- The words of the published body are the block words of the whole blocks. -/
theorem publishedWords_eq_map : ∀ bs : List Byte, publishedWords bs = (wholeBlocks bs).map blockWord
  | [] => rfl
  | [_] => rfl
  | [_, _] => rfl
  | [_, _, _] => rfl
  | b0 :: b1 :: b2 :: b3 :: rest => by
    have word : (b3 ++ b2 ++ b1 ++ b0 : Word) = blockWord #v[b0, b1, b2, b3] :=
      (append_eq_leWord b0 b1 b2 b3).trans (blockWord_eq_leWord #v[b0, b1, b2, b3]).symm
    rw [publishedWords, wholeBlocks, List.map_cons, word, publishedWords_eq_map rest]

/-- Fewer than four bytes are their own tail. -/
theorem tailBytes_short {bs : List Byte} (h : bs.length < 4) : tailBytes bs = bs := by
  rw [tailBytes, Nat.div_eq_of_lt h]
  rfl

/-- A whole block in front does not change the tail. -/
theorem tailBytes_cons_block (b0 b1 b2 b3 : Byte) (rest : List Byte) :
    tailBytes (b0 :: b1 :: b2 :: b3 :: rest) = tailBytes rest := by
  have hdrop : 4 * ((rest.length + 4) / 4) = 4 * (rest.length / 4) + 4 := by omega
  exact congrArg (fun n => (b0 :: b1 :: b2 :: b3 :: rest).drop n) hdrop

/-- The published tail is the little-endian word of the bytes after the last whole block: the missing bytes stand there as
zeros. -/
theorem publishedTail_eq_leWord : ∀ bs : List Byte, publishedTail bs = leWord (tailBytes bs)
  | [] => rfl
  | [b0] => by
    rw [tailBytes_short (by simp)]
    exact (append_eq_leWord b0 0#8 0#8 0#8).trans (by simp [leWord])
  | [b0, b1] => by
    rw [tailBytes_short (by simp)]
    exact (append_eq_leWord b0 b1 0#8 0#8).trans (by simp [leWord])
  | [b0, b1, b2] => by
    rw [tailBytes_short (by simp)]
    exact (append_eq_leWord b0 b1 b2 0#8).trans (by simp [leWord])
  | b0 :: b1 :: b2 :: b3 :: rest => by
    rw [publishedTail, tailBytes_cons_block, publishedTail_eq_leWord rest]

/-- R101: the published hash finalizes the accumulator, the tail and the count, also on a block boundary. -/
theorem publishedHash_eq (seed : Word) (bs : List Byte) :
    publishedHash seed bs =
      fmix32 (committed seed bs ^^^ kmix (leWord (tailBytes bs)) ^^^ BitVec.ofNat 32 bs.length) := by
  rw [publishedHash, publishedFinal_eq_fmix32, publishedScramble_eq_kmix, publishedTail_eq_leWord, publishedWords_eq_map,
    List.foldl_map, committed]
  simp only [publishedRound_eq_blockMix]

/-- On a block boundary the published hash mixes in no tail. -/
theorem publishedHash_of_boundary (seed : Word) {bs : List Byte} (h : bs.length % 4 = 0) :
    publishedHash seed bs = publishedFinal (committed seed bs ^^^ BitVec.ofNat 32 bs.length) := by
  have no_tail : tailBytes bs = [] := List.length_eq_zero_iff.1 ((tailBytes_length bs).trans h)
  rw [publishedHash_eq, no_tail, leWord, kmix_zero, BitVec.xor_zero, publishedFinal_eq_fmix32]

/-- The last of the probes in closed form is that of all the bytes. -/
theorem getLast?_closedProbes (seed : Word) {bs : List Byte} (hne : bs ≠ []) :
    ((List.range bs.length).map fun j => closedProbe seed (bs.take (j + 1))).getLast? = some (closedProbe seed bs) := by
  obtain ⟨n, hn⟩ := Nat.exists_eq_succ_of_ne_zero (mt List.length_eq_zero_iff.1 hne)
  rw [hn, List.range_succ, List.map_append, List.map_singleton, List.getLast?_concat, List.take_of_length_le hn.le]

/-- Settles O48: the run of O43 and O44 ends with the closed form of all the bytes, which is the published hash off a block
boundary and the accumulator on one. -/
theorem probeAgainstThePublishedHash : Obligations.ProbeAgainstThePublishedHash := by
  intro s w seed bs ys zs rest hr hw hne hlen hil hneutral hi
  obtain ⟨t, hrun, -, -, hh1, -⟩ := accumulatorReflectsWholeBlocksOnly s w seed bs ys zs rest hr hw hlen hil hneutral hi
  obtain ⟨u, hrun', hprobes⟩ := probeSequenceInClosedForm s w seed bs ys zs rest hr hw hlen hil hneutral hi
  obtain rfl : t = u := Host.Outcome.next.inj (hrun.symm.trans hrun')
  refine ⟨t, closedProbe seed bs, hrun, ?last, fun hoff => ?off, fun hon => ⟨?accumulator, ?on⟩⟩
  case last => rw [hprobes, List.getLast?_append, getLast?_closedProbes seed hne, Option.some_or]
  case off => rw [closedProbe, if_neg hoff, publishedHash_eq]
  case accumulator => rw [closedProbe, if_pos hon, hh1]
  case on => rw [publishedHash_of_boundary seed hon, closedProbe, if_pos hon]

end Sys2Proof.Machine
end

section
/-! SUPPORT. The two errors (`60_exceptions.md` R120 to R131): the status that a command word ends with, what an error leaves
unchanged, and the trace port. -/

namespace Sys2Proof

/-- R67, R120: the status of the response to a decoded word. -/
def Decoded.status : Decoded → Machine.Status
  | .legal (.construct _) => .ok
  | .legal (.reset _) => .ok
  | .legal (.length _) => .ok
  | .legal (.push v) => if v.toNat ≤ 255 then .ok else .invalidInput
  | .illegal _ => .illegalCommand

theorem Decoded.status_push_of_gt {v : Word} (h : 255 < v.toNat) : (Decoded.legal (.push v)).status = .invalidInput :=
  if_neg (Nat.not_le.2 h)

theorem Decoded.status_eq_invalidInput_iff (d : Decoded) :
    d.status = .invalidInput ↔ ∃ v, d = .legal (.push v) ∧ 255 < v.toNat := by
  refine ⟨fun h => ?_, fun ⟨v, hd, hv⟩ => hd ▸ status_push_of_gt hv⟩
  cases d with
  | illegal op => cases h
  | legal i =>
    cases i with
    | construct | reset | length => cases h
    | push v => exact ⟨v, rfl, Nat.lt_of_not_le fun hv => by simp [status, hv] at h⟩

theorem Decoded.status_eq_illegalCommand_iff (d : Decoded) : d.status = .illegalCommand ↔ ∃ op, d = .illegal op := by
  refine ⟨fun h => ?_, fun ⟨op, hd⟩ => hd ▸ rfl⟩
  cases d with
  | illegal op => exact ⟨op, rfl⟩
  | legal i =>
    cases i with
    | construct | reset | length => cases h
    | push v => by_cases hv : v.toNat ≤ 255 <;> simp [status, hv] at h

/-- R63: the illegal words are those whose opcode is none of 1 to 4. -/
theorem decode_eq_illegal_iff (w : CommandWord) :
    (∃ op, decode w = .illegal op) ↔ w.toNat / 2 ^ 32 ∉ [1, 2, 3, 4] := by
  obtain ⟨h1, h2, h3, h4, hother⟩ := decodeFollowsTheOpcodeMap w _ (operandField_toNat w)
  simp only [List.mem_cons, List.not_mem_nil, or_false]
  constructor
  · rintro ⟨op, hd⟩ (h | h | h | h)
    · cases hd.symm.trans (h1 h)
    · cases hd.symm.trans (h2 h)
    · cases hd.symm.trans (h3 h)
    · cases hd.symm.trans (h4 h)
  · intro h
    obtain ⟨op, -, hd⟩ := hother (by omega)
    exact ⟨op, hd⟩

end Sys2Proof

namespace Sys2Proof.Machine

/-- R67: no two statuses have one code. -/
theorem Status.code_inj {a b : Status} : a.code = b.code ↔ a = b := by
  refine ⟨fun h => Option.some.inj ?_, congrArg Status.code⟩
  rw [← a.ofCode_code, h, b.ofCode_code]

/-- A command shows one output, whose status is that of its word. -/
theorem effect_statuses (w : CommandWord) (k : Hasher) :
    (effect (.command w) k).2.map (·.response.status) = [(decode w).status] := by
  rcases hd : decode w with i | op
  · cases i with
    | construct | reset | length => simp only [effect, hd, List.map, Decoded.status]
    | push v => by_cases hv : v.toNat ≤ 255 <;> simp [effect, hd, hv, Decoded.status]
  · simp only [effect, hd, List.map, Decoded.status]

/-- R120, R125: an error writes no state of the block and answers the value 0 with no trace. -/
theorem effect_of_status_ne_ok {w : CommandWord} (h : (decode w).status ≠ .ok) (k : Hasher) :
    effect (.command w) k = (k, [⟨⟨(decode w).status, 0#32⟩, none⟩]) := by
  rcases hd : decode w with i | op
  · rw [hd] at h
    cases i with
    | construct | reset | length => exact absurd rfl h
    | push v =>
      have hv : ¬ v.toNat ≤ 255 := fun hv => h (if_pos hv)
      simp [effect, hd, Decoded.status, hv]
  · simp only [effect, hd, Decoded.status]

/-- A step that ends in an error differs from its start by the action taken and the error's response. -/
theorem step_of_status_ne_ok {s : State} {w : CommandWord} {rest : List Input} (hr : s.hasReset = true)
    (hi : s.inputs = .command w :: rest) (h : (decode w).status ≠ .ok) :
    step s = .next { s with
      inputs := rest
      outputs := s.outputs ++ [⟨⟨(decode w).status, 0#32⟩, none⟩] } := by
  rw [step_eq_effect hr hi, effect_of_status_ne_ok h]

/-- Settles O25: no opcode but 1 to 4 decodes to a command, so the word ends in IllegalCommand. -/
theorem illegalOpcodeRaisesIllegalCommand : Obligations.IllegalOpcodeRaisesIllegalCommand := by
  intro s opcode operand rest hr hi hop
  have hfield : (opcode ++ operand).toNat / 2 ^ 32 = opcode.toNat :=
    (opcodeField_eq_iff _ _).1 (opcodeField_commandWord opcode operand)
  have hstatus : (decode (opcode ++ operand)).status = .illegalCommand := by
    rw [Decoded.status_eq_illegalCommand_iff, decode_eq_illegal_iff, hfield]
    simp only [List.mem_cons, List.not_mem_nil, or_false]
    omega
  rw [step_of_status_ne_ok hr hi (by simp [hstatus]), hstatus]

/-- Settles O27: the output has the status of the decoded word, which is an error exactly for a PUSH of no byte and for an
illegal word. -/
theorem errorsAreExactlyTheTwo : Obligations.ErrorsAreExactlyTheTwo := by
  intro s w rest hr hi
  obtain ⟨o, ho, hstatus⟩ := List.map_eq_singleton_iff.1 (effect_statuses w s.hasher)
  refine ⟨_, o, step_eq_effect hr hi, congrArg (s.outputs ++ ·) ho, ?invalid, ?illegal, ?codes, fun hne => ?error⟩
  case invalid =>
    rw [← Decoded.status_eq_invalidInput_iff, ← hstatus]
    exact Status.code_inj (b := .invalidInput)
  case illegal =>
    rw [← decode_eq_illegal_iff, ← Decoded.status_eq_illegalCommand_iff, ← hstatus]
    exact Status.code_inj (b := .illegalCommand)
  case codes => cases o.response.status <;> simp [Status.code]
  case error =>
    have hbad : (decode w).status ≠ .ok := fun hok => hne (congrArg Status.code (hstatus.trans hok))
    rw [effect_of_status_ne_ok hbad] at ho ⊢
    obtain rfl := List.singleton_inj.1 ho
    exact ⟨rfl, rfl⟩

/-- Settles O28: the failed command hands the block's state on unchanged, so the following action has the effect it has
alone. -/
theorem streamContinuesAfterAnError : Obligations.StreamContinuesAfterAnError := by
  intro s w x rest hr hi herr
  have hbad : (decode w).status ≠ .ok := by
    obtain ⟨v, hd, hv⟩ | ⟨op, hd⟩ := herr
    · simp [hd, Decoded.status_push_of_gt hv]
    · simp [hd, Decoded.status]
  refine ⟨_, _, run_eq_effects [.command w, x] hr hi, step_eq_effect (by exact hr) rfl, ?_⟩
  simp only [effects, effect_of_status_ne_ok hbad, List.append_nil, List.drop_left]
  exact ⟨trivial, trivial, _, hbad, rfl⟩

/-- Settles O33, by the six things an accepted word can do: only the PUSH of a byte presents a trace. -/
theorem tracePortCopiesSuccessfulProbes : Obligations.TracePortCopiesSuccessfulProbes := by
  intro s w rest hr hi
  obtain ⟨t, ht, hacc⟩ := accept_cases w { s with inputs := rest }
  have hstep := (step_command hr hi).trans ht
  cases hacc with
  | pushed v hd hv => exact ⟨_, _, hstep, rfl, rfl, fun p => by simp [Output.tracePort, hd, hv]⟩
  | construct v hd | reset v hd | length v hd =>
    exact ⟨_, _, hstep, rfl, rfl, fun p => by simp [Output.tracePort, hd]⟩
  | invalid | illegal => exact ⟨_, _, hstep, rfl, rfl, fun p => by simp [Output.tracePort, CommandError.status]⟩

/-- Settles O6: PUSH of no byte raises InvalidInput, which leaves the count that LENGTH then answers. -/
theorem pushOfNoByteIsInvalidInput : Obligations.PushOfNoByteIsInvalidInput := by
  refine ⟨fun v s => execPush_of_gt s, fun s => execPush_of_gt (v := -1) s (by decide), fun v o s t u hv ht hu => ?_⟩
  obtain rfl : s.raise (.invalidInput v) = t := Host.Outcome.next.inj ((execPush_of_gt s hv).symm.trans ht)
  rw [exec_length] at hu
  cases hu
  rw [State.respond_outputs, List.getLast?_concat, State.raise_hasher]

end Sys2Proof.Machine
end

section
/-! SUPPORT. Reset and hazards (`70_reset_and_hazards.md` R140 to R149): the power-on values, `rst`, a command before the first
reset, who writes `h1`, and that no action stops the block. -/

namespace Sys2Proof.Machine

/-! Reset -/

/-- Settles O34; the power-on state is that of a fresh hasher of seed 0. -/
theorem powerOnValues : Obligations.PowerOnValues :=
  ⟨rfl, rfl, rfl, Hasher.fresh_slot 0#32⟩

/-- Settles O29: it is the case of `step` for an assertion of `rst`, whatever it interrupts. -/
theorem rstAbandonsTheCommandInProgress : Obligations.RstAbandonsTheCommandInProgress :=
  fun _ _ _ => step_rst

/-- R143: `step_command` for a block that has had no power-on reset. -/
theorem step_command_of_not_hasReset {s : State} {w : CommandWord} {rest : List Input} (hr : s.hasReset = false)
    (hi : s.inputs = .command w :: rest) : step s = .refused .beforeFirstReset := by
  simp [step_input hi, serve, hr]

/-- Settles O30: the reset state is that of the power-on values, with the reset done. -/
theorem commandBeforeFirstResetIsRefused : Obligations.CommandBeforeFirstResetIsRefused :=
  ⟨fun _ _ _ => step_command_of_not_hasReset, rfl, rfl⟩

/-! The accumulator -/

/-- R146: a PUSH that changes the accumulator leaves phase 0, and commits the staged block. -/
theorem Hasher.pushed_h1_of_changed {k : Hasher} {b : Byte} (h : (k.pushed b).h1 ≠ k.h1) :
    phase (k.pushed b).totalLen = 0 ∧ (k.pushed b).h1 = blockMix k.h1 (k.pushed b).buf := by
  have at_boundary : phase (k.totalLen + 1#32) = 0 := by_contra fun hne => h (Hasher.pushed_h1_of_ne_zero hne b)
  exact ⟨at_boundary, (Hasher.pushed_h1 k b).trans (if_pos at_boundary)⟩

/-- Settles O36: of everything a step can do, `rst`, CONSTRUCT and RESET load the accumulator, and a PUSH of a byte changes it
only on a block boundary. -/
theorem accumulatorIsWrittenOnlyAtBlockBoundaries : Obligations.AccumulatorIsWrittenOnlyAtBlockBoundaries := by
  intro s t hstep hne
  obtain ⟨-, rfl⟩ | ⟨a, rest, hi, rfl⟩ | ⟨w, rest, hi, -, hacc⟩ := step_cases hstep
  · exact absurd rfl hne
  · exact ⟨_, _, hi, .inl ⟨a, rfl, rfl⟩⟩
  · refine ⟨_, _, hi, .inr ?_⟩
    cases hacc with
    | construct seedIn hd => exact .inl ⟨w, seedIn, rfl, hd, rfl⟩
    | reset o hd => exact .inr (.inl ⟨w, o, rfl, hd, rfl⟩)
    | pushed v hd hv =>
      obtain ⟨at_boundary, commits⟩ := Hasher.pushed_h1_of_changed hne
      exact .inr (.inr ⟨w, v, rfl, hd, hv, congrArg Fin.val at_boundary, commits⟩)
    | length | invalid | illegal => exact absurd rfl hne

/-! Progress -/

/-- R126, R149: a block that has been reset takes every step, and has still been reset after it. -/
theorem exists_step_of_hasReset {s : State} (hr : s.hasReset = true) :
    ∃ t, step s = .next t ∧ t.hasReset = true := by
  rcases hi : s.inputs with _ | ⟨x, rest⟩
  · exact ⟨s, step_idle hi, hr⟩
  · exact ⟨_, step_eq_effect hr hi, hr⟩

/-- Settles O39, by induction on the number of steps: each one can be taken and leaves a block that has been reset. -/
theorem noCommandStopsTheBlock : Obligations.NoCommandStopsTheBlock := by
  intro n
  induction n with
  | zero => exact fun s hr => ⟨s, rfl, hr⟩
  | succ n ih =>
    intro s hr
    obtain ⟨t, hstep, ht⟩ := exists_step_of_hasReset hr
    rw [run, hstep]
    exact ih t ht

end Sys2Proof.Machine
end

section
/-! SUPPORT. The command word and its encoding (`30_encoding.md` R60 to R63, and the opening paragraph on
`opcode_table.json`): a word is its two fields, a legal word is the word of one command, and a row of the opcode table
selects by the opcode field. -/

namespace Sys2Proof

/-! The two fields of a word make it up -/

theorem commandWord_toNat (opcode : Byte) (operand : Word) :
    (commandWord opcode operand).toNat = 2 ^ 32 * opcode.toNat + operand.toNat := by
  rw [commandWord, BitVec.toNat_append, Nat.shiftLeft_eq, Nat.mul_comm, Nat.two_pow_add_eq_or_of_lt operand.isLt]

/-- R60: the opcode and the operand are the whole word. -/
theorem commandWord_fields (w : CommandWord) : commandWord (opcodeField w) (operandField w) = w := by
  apply BitVec.eq_of_toNat_eq
  rw [commandWord_toNat, opcodeField_toNat, operandField_toNat, Nat.div_add_mod]

theorem commandWord_of_opcodeField {w : CommandWord} {opcode : Byte} (h : opcodeField w = opcode) :
    commandWord opcode (operandField w) = w :=
  h ▸ commandWord_fields w

/-- R62, R63: a word with one of the four opcodes is the word of a command, and any other word is illegal. -/
theorem exists_encode_eq_or_decode_illegal (w : CommandWord) :
    (∃ i, encode i = w) ∨ decode w = .illegal (opcodeField w) := by
  by_cases h1 : opcodeField w = 0x01#8
  · exact .inl ⟨.construct _, commandWord_of_opcodeField h1⟩
  by_cases h2 : opcodeField w = 0x02#8
  · exact .inl ⟨.reset _, commandWord_of_opcodeField h2⟩
  by_cases h3 : opcodeField w = 0x03#8
  · exact .inl ⟨.length _, commandWord_of_opcodeField h3⟩
  by_cases h4 : opcodeField w = 0x04#8
  · exact .inl ⟨.push _, commandWord_of_opcodeField h4⟩
  exact .inr (decode_illegal h1 h2 h3 h4)

/-- Settles O19, command by command: each has an opcode of its own and carries its whole operand. -/
theorem decodeInvertsEncode : Obligations.DecodeInvertsEncode :=
  decode_encode

/-- Settles O20: a legal word is the word of some command, which by O19 is the one it decodes to. -/
theorem encodeInvertsDecode : Obligations.EncodeInvertsDecode := by
  intro w i hd
  obtain ⟨j, rfl⟩ | hillegal := exists_encode_eq_or_decode_illegal w
  · rw [decode_encode] at hd
    rw [Decoded.legal.inj hd]
  · cases hillegal.symm.trans hd

/-! The opcode table -/

theorem opcodeTable_mask : ∀ r ∈ opcodeTable, r.mask = 0xFF00000000#40 := by decide

theorem opcodeTable_pattern : ∀ r ∈ opcodeTable, r.pattern = commandWord (opcodeField r.pattern) 0#32 := by decide

/-- The table holds no opcode but the four of R62. -/
theorem opcodeTable_opcode : ∀ r ∈ opcodeTable, (opcodeField r.pattern).toNat ∈ [1, 2, 3, 4] := by decide

/-- A row selects the words whose opcode is that of its pattern, whatever their operand. -/
theorem selects_eq_opcode_beq (w : CommandWord) {r : OpcodeRow} (hr : r ∈ opcodeTable) :
    r.selects w = (opcodeField w == opcodeField r.pattern) := by
  have masked : w &&& r.mask = commandWord (opcodeField w) 0#32 := by
    rw [opcodeTable_mask r hr, ← commandWord_and_mask, commandWord_fields]
  rw [OpcodeRow.selects, masked, Bool.eq_iff_iff, beq_iff_eq, beq_iff_eq]
  constructor
  · intro h
    rw [← h, opcodeField_commandWord]
  · intro h
    rw [h, ← opcodeTable_pattern r hr]

/-- The rows that select the word of a command depend on its opcode only, and are the one row of its mnemonic. -/
theorem filter_selects_encode (i : Instr) :
    (opcodeTable.filter (·.selects (encode i))).map (·.mnemonic) = [i.mnemonic] := by
  rw [List.filter_congr fun r hr => selects_eq_opcode_beq (encode i) hr]
  cases i with
  | construct | reset | length | push => simp only [encode, opcodeField_commandWord]; rfl

/-- No row selects an illegal word: it would have one of the four opcodes. -/
theorem filter_selects_illegal {w : CommandWord} {opcode : Byte} (hd : decode w = .illegal opcode) :
    opcodeTable.filter (·.selects w) = [] := by
  rw [List.filter_eq_nil_iff]
  intro r hr hselects
  rw [selects_eq_opcode_beq w hr, beq_iff_eq, opcodeField_eq_iff] at hselects
  exact (decode_eq_illegal_iff w).1 ⟨opcode, hd⟩ (hselects ▸ opcodeTable_opcode r hr)

/-- Settles O21: by O20 a legal word is the word of its command, which the command's row alone selects. -/
theorem opcodeTableSelectsTheDecodedCommand : Obligations.OpcodeTableSelectsTheDecodedCommand := by
  refine fun w => ⟨fun i hd => ?_, fun opcode => filter_selects_illegal⟩
  rw [← encodeInvertsDecode w i hd]
  exact filter_selects_encode i

/-- Settles O22, word by word: the decoder computes on each. -/
theorem sampleWordsDecode : Obligations.SampleWordsDecode := by
  unfold Obligations.SampleWordsDecode
  decide

end Sys2Proof

namespace Sys2Proof.Machine

/-- Settles O41: the block has just been reset and no output has been shown. -/
theorem powerOnStateMeetsTheInvariant : Obligations.PowerOnStateMeetsTheInvariant :=
  ⟨rfl, List.forall_mem_nil _⟩

end Sys2Proof.Machine
end
